-- ==== Sys2Proof/Word.lean ====
section
/-! DEFINITION. The one word type of the core: memory cells, registers, immediates, the program counter and
addresses are all unsigned 8-bit values (rules R7, R20, R26, R50). The operators `+8`, `-8` and `*8` of rule R8 are
addition, subtraction and multiplication of this type, which wrap modulo 256. -/

namespace Sys2Proof

/-- An unsigned 8-bit value, 0 to 255 (rule R7). -/
abbrev Byte := BitVec 8

end Sys2Proof
end

