-- ==== Sys2Proof/Config.lean ====
section
/-! DEFINITION. The parameters of the hardware (rule R6). Widths are fixed by the types (Word.lean); the opcode
values stand in Decode.lean as one table, so that they can be corrected there (decision D8). -/

namespace Sys2Proof.Config

/-- `NREG`: exactly eight general registers, indices 0 to 7 (rules R6, R20). -/
def numRegs : Nat := 8

/-- `MEM_SIZE`: 256 bytes, addresses 0 to 255 (rules R6, R50). -/
def memSize : Nat := 256

/-- `SP_RESET`: the stack pointer right after reset (rules R6, R22). -/
def spReset : Byte := 0xF4

/-- `LOAD_BASE`: the first address the load writes (rules R6, R242; conflict C1). -/
def loadBase : Byte := 0

/-- `MAX_PROGRAM`: the longest loadable program (rule R6; decision D14). -/
def maxProgram : Nat := 256

/-- What an address that the memory list does not hold reads as. It is the base of the list's one form, and so also
the `INIT_MEMORY` of `State.reset`. DESIGN CHOICE, unsafe (log entry 1): the spec leaves `INIT_MEMORY` open; zero is
the test value it suggests. `State.resetWith` takes `INIT_MEMORY` as an argument. -/
def unlistedByte : Byte := 0

end Sys2Proof.Config
end

