-- ==== Sys2Proof/Machine/State.lean ====
section
/-! DEFINITION. The architectural state (rules R20 to R40, R50), as plain data, and its value right after reset
(rule R240). The list is closed: the core has no other state (rule R39). -/

namespace Sys2Proof.Machine

/-- The index of a general register, 0 to 7 (rule R20). -/
abbrev Reg := Fin 8

/-- The register file: eight 8-bit registers, none hard-wired, banked or read-only (rules R20, R25). Register 7 is
the stack pointer SP (rule R21). -/
structure RegFile where
  r0 : Byte
  r1 : Byte
  r2 : Byte
  r3 : Byte
  r4 : Byte
  r5 : Byte
  r6 : Byte
  r7 : Byte
  deriving DecidableEq, Repr

/-- The flag register FL. Its three meaningful bits are stored; bits 7 to 3 are hard-wired to 0 and hold nothing
(rule R30). `Flags.toByte` (Flags.lean) is FL as the 8-bit number a host reads. -/
structure Flags where
  /-- Equal, bit 0 -/
  e : Bool
  /-- Greater-Than, bit 1 -/
  g : Bool
  /-- Less-Than, bit 2 -/
  l : Bool
  deriving DecidableEq, Repr

/-- The instruction latch `ir`: the three bytes fetched at the start of the current step (rule R36). -/
structure Latch where
  op : Byte
  a : Byte
  b : Byte
  deriving DecidableEq, Repr

/-- The fault kinds of rule R210. -/
inductive FaultKind where
  | none
  | unknownInstruction
  | unsupportedOperation
  | registerIndexFault
  | divideByZero
  deriving DecidableEq, Repr

/-- The fault record FAULT (rule R35). -/
structure FaultRecord where
  kind : FaultKind
  pc : Byte
  opcode : Byte
  operandA : Byte
  operandB : Byte
  detail : Byte
  deriving DecidableEq, Repr

/-- FAULT right after reset: kind NONE, every other field 0 (rules R35, R240). -/
def FaultRecord.clear : FaultRecord :=
  { kind := .none, pc := 0, opcode := 0, operandA := 0, operandB := 0, detail := 0 }

/-- The memory: (address, byte) pairs in one canonical form (`Memory.wf` in Ops.lean). An address it does not list
reads as `Config.unlistedByte`. -/
abbrev Memory := List Host.Cell

/-- Reasons for which a step could stop with no next state. There is none, so the type has no constructor: a fatal
error of the core is a NEXT state in which FAULT is written (rule R213), no memory access can fault (rule R52), and a
terminal core keeps its state (rule R225). -/
inductive Fault : Type
  deriving DecidableEq, Repr

/-- Reasons for which the model gives an instruction no meaning. -/
inductive Refusal where
  /-- Raised by an arm of `exec` that has no meaning yet, with the row's mnemonic; safe, since nothing then runs. No
  arm of this model raises it. -/
  | notModelled (mnemonic : String)
  deriving DecidableEq, Repr

/-- The whole state of the core (rule R40). -/
structure State where
  /-- `mem[0..255]` (rule R50) -/
  mem : Memory
  /-- `x[0..7]` (rule R20) -/
  regs : RegFile
  /-- the program counter: during an instruction, the address of its opcode byte (rule R26) -/
  pc : Byte
  /-- FL (rule R30) -/
  fl : Flags
  /-- RUN: the controller steps only while it is 1 (rule R34) -/
  run : Bool
  /-- FAULT (rule R35) -/
  fault : FaultRecord
  /-- the instruction latch (rule R36) -/
  ir : Latch
  /-- OUT: the bytes sent to the output port, oldest first (rule R37) -/
  out : List Byte
  deriving DecidableEq, Repr

/-- The core right after reset, before any load (rules R22, R26, R33 to R37, R240). Two values are the model's own,
DESIGN CHOICE: memory reads as `Config.unlistedByte` everywhere (log entry 1), and `ir`, which the spec leaves
unspecified, holds zeros (log entry 2). -/
def State.reset : State :=
  { mem := []
    regs := { r0 := 0, r1 := 0, r2 := 0, r3 := 0, r4 := 0, r5 := 0, r6 := 0, r7 := Config.spReset }
    pc := 0
    fl := { e := false, g := false, l := false }
    run := true
    fault := FaultRecord.clear
    ir := { op := 0, a := 0, b := 0 }
    out := [] }

end Sys2Proof.Machine
end

