-- ==== Sys2Proof/Machine/Flags.lean ====
section
/-! DEFINITION. The flag_register's one computation, the unsigned comparison (rules R31, R142), and FL read as a
number (rule R30). ADD, SUB, MUL and DIV produce no flag (rules R130, R132). -/

namespace Sys2Proof.Machine

/-- The flags of comparing `x` with `y`: exactly one of E, L and G, unsigned (rule R142; decision D6). -/
def Flags.compare (x y : Byte) : Flags :=
  if x = y then { e := true, g := false, l := false }
  else if x < y then { e := false, g := false, l := true }
  else { e := false, g := true, l := false }

/-- FL as the 8-bit number a host reads: E is bit 0, G bit 1, L bit 2 and bits 7 to 3 read as 0 (rule R30;
decision D7). -/
def Flags.toByte (f : Flags) : Byte :=
  (if f.e then 0b001 else 0) ||| (if f.g then 0b010 else 0) ||| (if f.l then 0b100 else 0)

end Sys2Proof.Machine
end

