-- ==== Sys2Proof/Machine/Ops.lean ====
section
/-! DEFINITION. The named operations over memory, registers and the other state that every meaning is written with,
fault entry among them. -/

namespace Sys2Proof.Machine

/-- The outcome of one instruction or one step. -/
abbrev Result := Host.Outcome State Fault Refusal

/-! ### Memory (rules R50, R51) -/

/-- The memory's one form: addresses strictly rising, all of them in the address space, and no entry equal to what an
unlisted address reads as. Equal memories are then equal lists. -/
abbrev Memory.wf (m : Memory) : Prop :=
  m.Pairwise (fun c d => c.1 < d.1) ∧ ∀ c ∈ m, c.1 < Config.memSize ∧ c.2 ≠ Config.unlistedByte

/-- `MemRead(addr, 1)` on the memory alone (rule R51). -/
def Memory.read (m : Memory) (addr : Byte) : Byte :=
  (List.lookup addr.toNat m).getD Config.unlistedByte

/-- Put a cell in front of the memory, unless it holds what an unlisted address reads as. -/
def Memory.cons (k : Nat) (v : Byte) (m : Memory) : Memory :=
  if v = Config.unlistedByte then m else (k, v) :: m

/-- Store `v` under the key `k`, keeping the canonical form. -/
def Memory.insert (k : Nat) (v : Byte) : Memory → Memory
  | [] => Memory.cons k v []
  | c :: m =>
    if k < c.1 then Memory.cons k v (c :: m)
    else if k = c.1 then Memory.cons k v m
    else c :: Memory.insert k v m

/-- `MemWrite(addr, 1, v)` on the memory alone (rule R51). -/
def Memory.write (m : Memory) (addr v : Byte) : Memory := Memory.insert addr.toNat v m

/-- The memory whose byte at each address is given by a function: how `INIT_MEMORY` enters the model (rule R57). -/
def Memory.ofFun (init : Byte → Byte) : Memory :=
  (List.range Config.memSize).filterMap fun k =>
    let v := init (BitVec.ofNat 8 k)
    if v = Config.unlistedByte then none else some (k, v)

/-- `MemRead(addr, 1)` (rule R8). An address is a byte, so it is reduced modulo 256 as rule R52 asks. -/
def State.byteAt (s : State) (addr : Byte) : Byte := Memory.read s.mem addr

/-- `MemWrite(addr, 1, v)` (rule R8). -/
def State.writeByte (s : State) (addr v : Byte) : State := { s with mem := Memory.write s.mem addr v }

/-! ### Registers (rules R20 to R25) -/

/-- The register of an index. -/
def RegFile.get (f : RegFile) : Reg → Byte
  | 0 => f.r0
  | 1 => f.r1
  | 2 => f.r2
  | 3 => f.r3
  | 4 => f.r4
  | 5 => f.r5
  | 6 => f.r6
  | 7 => f.r7

/-- The register file with one register written. -/
def RegFile.set (f : RegFile) (r : Reg) (v : Byte) : RegFile :=
  match r with
  | 0 => { f with r0 := v }
  | 1 => { f with r1 := v }
  | 2 => { f with r2 := v }
  | 3 => { f with r3 := v }
  | 4 => { f with r4 := v }
  | 5 => { f with r5 := v }
  | 6 => { f with r6 := v }
  | 7 => { f with r7 := v }

/-- `SP_INDEX`: register 7 is the stack pointer (rules R6, R21). -/
def spReg : Reg := 7

/-- `x[r]` (rule R8). -/
def State.reg (s : State) (r : Reg) : Byte := s.regs.get r

/-- `x[r] <- v` (rule R8). -/
def State.writeReg (s : State) (r : Reg) (v : Byte) : State := { s with regs := s.regs.set r v }

/-- `sp`, another name for `x[7]` (rules R8, R21). -/
def State.sp (s : State) : Byte := s.reg spReg

/-- `sp <- v` (rules R8, R21). -/
def State.writeSp (s : State) (v : Byte) : State := s.writeReg spReg v

/-! ### Program counter, flags, running bit, latch and output -/

/-- `pc <- target` (rule R8). -/
def State.setPc (s : State) (target : Byte) : State := { s with pc := target }

/-- `pc <- pc +8 len`: a handler adds its own length (rules R27, R106). -/
def State.advance (s : State) (len : Byte) : State := s.setPc (s.pc + len)

/-- Write E, L and G at once: only CMP does (rule R31). -/
def State.setFlags (s : State) (f : Flags) : State := { s with fl := f }

/-- `RUN <- 0`: only HLT does (rules R34, R200). -/
def State.halt (s : State) : State := { s with run := false }

/-- Latch the three fetched bytes (rules R36, R101). -/
def State.latch (s : State) (ir : Latch) : State := { s with ir := ir }

/-- `emit(v)`: append the byte to the output sequence (rules R37, R163). -/
def State.emit (s : State) (v : Byte) : State := { s with out := s.out ++ [v] }

/-! ### The stack (rule R59): full and descending, no overflow or underflow check -/

/-- `sp <- sp -8 1`, the first half of a push. -/
def State.decSp (s : State) : State := s.writeSp (s.sp - 1)

/-- `sp <- sp +8 1`, the second half of a pop. -/
def State.incSp (s : State) : State := s.writeSp (s.sp + 1)

/-- `MemWrite(sp, 1, v)`, the second half of a push. -/
def State.storeTop (s : State) (v : Byte) : State := s.writeByte s.sp v

/-- `MemRead(sp, 1)`, the first half of a pop. -/
def State.loadTop (s : State) : Byte := s.byteAt s.sp

/-! ### Faults (rules R210 to R217) -/

/-- The core can step exactly when RUN = 1 and FAULT.kind = NONE (rule R100). -/
def State.canStep (s : State) : Bool := s.run && decide (s.fault.kind = .none)

/-- Terminal: halted or faulted, so that no step is left to take (rules R10, R108). -/
def State.terminal (s : State) : Bool := !s.canStep

/-- Fault entry, `raise` (rule R213): FAULT records the kind, the unchanged pc, the three latched bytes and the
detail; nothing else is written, and RUN stays 1 (conflict C3). There is no return from a fault and no instruction
clears FAULT (rule R217), so no operation undoes this one. -/
def State.raise (s : State) (kind : FaultKind) (detail : Byte) : State :=
  { s with fault :=
      { kind := kind, pc := s.pc, opcode := s.ir.op, operandA := s.ir.a, operandB := s.ir.b, detail := detail } }

/-- The code that FAULT.kind holds, 3 bits wide (rules R35, R210). Codes 5 to 7 stand for nothing. -/
def FaultKind.code : FaultKind → BitVec 3
  | .none => 0
  | .unknownInstruction => 1
  | .unsupportedOperation => 2
  | .registerIndexFault => 3
  | .divideByZero => 4

end Sys2Proof.Machine
end

