-- ==== Sys2Proof/Machine/Operands.lean ====
section
/-! DEFINITION. The operand forms (rule R77). A register operand is a byte that `checkReg` turns into a register or a
RegisterIndexFault (rules R8, R24, R212); the other form, LDI's immediate, is the byte itself (rule R161). -/

namespace Sys2Proof.Machine

/-- `checkReg(operand)`, then go on with the register it names. An index of 8 or more raises RegisterIndexFault with
the index as its detail, and nothing of `andThen` happens (rules R24, R212). Nesting two of these makes the first
failing operand the one reported (rule R216). -/
def checkReg (operand : Byte) (s : State) (andThen : Reg → Result) : Result :=
  if h : operand.toNat < 8 then andThen ⟨operand.toNat, h⟩
  else .next (s.raise .registerIndexFault operand)

/-- LDI's immediate operand: copied with no reduction and no extension (rules R77, R161). -/
def immediate (operand : Byte) : Byte := operand

end Sys2Proof.Machine
end

