-- ==== Sys2Proof/Machine/Alu.lean ====
section
/-! DEFINITION. The alu block (rules R130 to R132), with the SUB and DIV operations and the two faults that no
instruction reaches, and the one way a handler uses it. -/

namespace Sys2Proof.Machine

/-- The operation kinds of the alu (rule R130). -/
inductive AluKind where
  | add | sub | mul | div | cmp
  deriving DecidableEq, Repr

/-- The `alu_op` code of a kind (rule R130; decision D24). -/
def AluKind.code : AluKind → BitVec 3
  | .add => 0
  | .sub => 1
  | .mul => 2
  | .div => 3
  | .cmp => 4

/-- The kind of an `alu_op` code; codes 5, 6 and 7 have none (rule R130). -/
def AluKind.ofCode (op : BitVec 3) : Option AluKind :=
  [AluKind.add, .sub, .mul, .div, .cmp].find? fun k => k.code == op

/-- What the alu drives: a result, a flag value or a fault indication (rule R130). -/
inductive AluOut where
  | result (v : Byte)
  | flags (f : Flags)
  | fault (kind : FaultKind)
  deriving DecidableEq, Repr

/-- The alu block: unsigned 8-bit arithmetic that wraps modulo 256, truncating division, unsigned compare
(rules R130, R132). A code of 5, 6 or 7, or a zero divisor, is a fault (rule R131). -/
def alu (op : BitVec 3) (x y : Byte) : AluOut :=
  match AluKind.ofCode op with
  | some .add => .result (x + y)
  | some .sub => .result (x - y)
  | some .mul => .result (x * y)
  | some .div => if y = 0 then .fault .divideByZero else .result (x / y)
  | some .cmp => .flags (Flags.compare x y)
  | none => .fault .unsupportedOperation

/-- How a handler uses the alu: check operand_a, then operand_b (rule R216), read both registers, then write the
result to Ra, or the flag value to FL, and advance over the 3-byte instruction. An alu fault is raised with detail 0
before anything is written (rules R131, R214, R215). -/
def aluHandler (op : BitVec 3) (a b : Byte) (s : State) : Result :=
  checkReg a s fun ra => checkReg b s fun rb =>
    match alu op (s.reg ra) (s.reg rb) with
    | .result v => .next ((s.writeReg ra v).advance 3)
    | .flags f => .next ((s.setFlags f).advance 3)
    | .fault kind => .next (s.raise kind 0)

end Sys2Proof.Machine
end

