-- ==== Sys2Proof/Machine/Arith.lean ====
section
/-! DEFINITION. The arithmetic family: ADD, MUL and CMP (41_alu.md section 2). -/

namespace Sys2Proof.Machine

/-- ADD: `x[a] <- x[a] +8 x[b]`, no flag (rule R140). -/
def execAdd (a b : Byte) (s : State) : Result := aluHandler AluKind.add.code a b s

/-- MUL: `x[a] <- x[a] *8 x[b]`, no flag (rule R141). -/
def execMul (a b : Byte) (s : State) : Result := aluHandler AluKind.mul.code a b s

/-- CMP: FL gets the unsigned comparison of `x[a]` with `x[b]`; no register changes (rule R142). -/
def execCmp (a b : Byte) (s : State) : Result := aluHandler AluKind.cmp.code a b s

end Sys2Proof.Machine
end

