-- ==== Sys2Proof/Machine/DataMove.lean ====
section
/-! DEFINITION. The data movement family: LDI and PRN (42_data_movement.md). -/

namespace Sys2Proof.Machine

/-- LDI: `x[a] <- imm` (rules R160, R161). -/
def execLdi (a imm : Byte) (s : State) : Result :=
  checkReg a s fun ra => .next ((s.writeReg ra (immediate imm)).advance 3)

/-- PRN: emit `x[a]` on the output port (rule R163). The host takes every byte (rule R245; log entry 6). -/
def execPrn (a : Byte) (s : State) : Result :=
  checkReg a s fun ra => .next ((s.emit (s.reg ra)).advance 2)

end Sys2Proof.Machine
end

