-- ==== Sys2Proof/Machine/Stack.lean ====
section
/-! DEFINITION. The stack family: PUSH and POP (43_stack.md). The statements of a rule run in the order written, each
reading what the earlier ones wrote, which shows when the operand is R7 (rule R247). -/

namespace Sys2Proof.Machine

/-- PUSH: decrement SP, then store `x[a]`, read after the decrement, at the new SP (rule R170). -/
def execPush (a : Byte) (s : State) : Result :=
  checkReg a s fun ra =>
    let s1 := s.decSp
    .next ((s1.storeTop (s1.reg ra)).advance 2)

/-- POP: `x[a]` gets the byte at SP, then SP, read after that write, is incremented (rule R171). -/
def execPop (a : Byte) (s : State) : Result :=
  checkReg a s fun ra => .next ((s.writeReg ra s.loadTop).incSp.advance 2)

end Sys2Proof.Machine
end

