-- ==== Sys2Proof/Machine/System.lean ====
section
/-! DEFINITION. The system family: HLT (45_system.md). -/

namespace Sys2Proof.Machine

/-- HLT: clear RUN; pc advances although no fetch follows (rule R200). -/
def execHlt (s : State) : Result := .next (s.halt.advance 1)

end Sys2Proof.Machine
end

