-- ==== Sys2Proof/Machine/Transfer.lean ====
section
/-! DEFINITION. The control transfer family: CALL, RET, JMP, JEQ and JNE (44_control_transfer.md). Targets are
register values or stack bytes; there is no delay slot and no link register. -/

namespace Sys2Proof.Machine

/-- CALL: decrement SP, store the return address `pc +8 2` there, then jump to `x[a]`, read after the decrement
(rule R180). The operand is the latched byte, so a push over the instruction's own bytes does not change it
(rules R63, R105). -/
def execCall (a : Byte) (s : State) : Result :=
  checkReg a s fun ra =>
    let s1 := s.decSp.storeTop (s.pc + 2)
    .next (s1.setPc (s1.reg ra))

/-- RET: jump to the byte at SP, then increment SP (rule R181). -/
def execRet (s : State) : Result := .next (s.setPc s.loadTop).incSp

/-- Jump to the value of the register that the operand names (rule R105). -/
def jumpToReg (a : Byte) (s : State) : Result := checkReg a s fun ra => .next (s.setPc (s.reg ra))

/-- JMP: jump always; FL is not read (rule R182). -/
def execJmp (a : Byte) (s : State) : Result := jumpToReg a s

/-- JEQ: jump if E is set; if not taken, advance and leave the operand unchecked (rules R24, R183). -/
def execJeq (a : Byte) (s : State) : Result := if s.fl.e then jumpToReg a s else .next (s.advance 2)

/-- JNE: jump if E is clear; if not taken, advance and leave the operand unchecked (rules R24, R184). -/
def execJne (a : Byte) (s : State) : Result := if s.fl.e then .next (s.advance 2) else jumpToReg a s

end Sys2Proof.Machine
end

