-- ==== Sys2Proof/Syntax.lean ====
section
/-! DEFINITION. The 13 instructions of the dispatch table (rule R72), one constructor per row of
spec/opcode_table.json, with their operand bytes as fetched. An operand byte that names a register stays a byte:
every byte is a legal operand (rule R78), and one of 8 or more faults only when the register is accessed
(rule R24). -/

namespace Sys2Proof

/-- The identity of an instruction: what the decoder reads from the opcode byte alone (rule R73). -/
inductive Op where
  | hlt | ret | push | pop | prn | call | jmp | jeq | jne | ldi | add | mul | cmp
  deriving DecidableEq, Repr

/-- The four instruction formats (rule R70). -/
inductive Format where
  /-- opcode only -/
  | n
  /-- opcode, register index -/
  | r
  /-- opcode, register index, immediate byte -/
  | ri
  /-- opcode, register index, register index -/
  | rr
  deriving DecidableEq, Repr

/-- An instruction with its operand bytes: `a` is operand_a, `b` is operand_b (rule R9). -/
inductive Instr where
  /-- HLT: halt (rule R200). -/
  | hlt
  /-- RET: return from subroutine (rule R181). -/
  | ret
  /-- PUSH Ra (rule R170). -/
  | push (a : Byte)
  /-- POP Ra (rule R171). -/
  | pop (a : Byte)
  /-- PRN Ra: send a register to the output port (rule R163). -/
  | prn (a : Byte)
  /-- CALL Ra: call the subroutine whose address Ra holds (rule R180). -/
  | call (a : Byte)
  /-- JMP Ra (rule R182). -/
  | jmp (a : Byte)
  /-- JEQ Ra: jump if FL.E is set (rule R183). -/
  | jeq (a : Byte)
  /-- JNE Ra: jump if FL.E is clear (rule R184). -/
  | jne (a : Byte)
  /-- LDI Ra,imm: load an immediate byte (rule R160). -/
  | ldi (a imm : Byte)
  /-- ADD Ra,Rb (rule R140). -/
  | add (a b : Byte)
  /-- MUL Ra,Rb (rule R141). -/
  | mul (a b : Byte)
  /-- CMP Ra,Rb (rule R142). -/
  | cmp (a b : Byte)
  deriving DecidableEq, Repr

/-- The identity of an instruction, less its operands. -/
def Instr.op : Instr → Op
  | .hlt => .hlt
  | .ret => .ret
  | .push _ => .push
  | .pop _ => .pop
  | .prn _ => .prn
  | .call _ => .call
  | .jmp _ => .jmp
  | .jeq _ => .jeq
  | .jne _ => .jne
  | .ldi _ _ => .ldi
  | .add _ _ => .add
  | .mul _ _ => .mul
  | .cmp _ _ => .cmp

end Sys2Proof
end

