-- ==== Sys2Proof/Decode.lean ====
section
/-! DEFINITION. The opcode table, the decoder and the encoder (rules R70 to R80). The decoder compares the whole
opcode byte with the 13 values and uses no field of it (rule R73); every other byte is rejected by name (rule R74). -/

namespace Sys2Proof

/-- The opcode table of rule R72. LDI, PRN, HLT and ADD are the source's values; the other nine are the spec's
decision D8. -/
def Op.code : Op → Byte
  | .hlt  => 0x01
  | .ret  => 0x11
  | .push => 0x45
  | .pop  => 0x46
  | .prn  => 0x47
  | .call => 0x50
  | .jmp  => 0x54
  | .jeq  => 0x55
  | .jne  => 0x56
  | .ldi  => 0x82
  | .add  => 0xA0
  | .mul  => 0xA2
  | .cmp  => 0xA7

/-- The rows of the dispatch table: exactly these 13 (rule R72). -/
def Op.all : List Op :=
  [.hlt, .ret, .push, .pop, .prn, .call, .jmp, .jeq, .jne, .ldi, .add, .mul, .cmp]

/-- The decoder's lookup: the instruction whose opcode is the whole byte, or none when the byte is not in the table
(`known` = 0; rules R73, R74). -/
def Op.ofByte (byte : Byte) : Option Op := Op.all.find? fun o => o.code == byte

/-- The format of each instruction (rules R70, R72). -/
def Op.format : Op → Format
  | .hlt => .n
  | .ret => .n
  | .push => .r
  | .pop => .r
  | .prn => .r
  | .call => .r
  | .jmp => .r
  | .jeq => .r
  | .jne => .r
  | .ldi => .ri
  | .add => .rr
  | .mul => .rr
  | .cmp => .rr

/-- The length in bytes that a format has (rule R70). -/
def Format.length : Format → Nat
  | .n => 1
  | .r => 2
  | .ri => 3
  | .rr => 3

/-- The length of an instruction, fixed by its opcode alone (rule R75). -/
def Op.length (o : Op) : Nat := o.format.length

/-- The instruction of an opcode and the two operand bytes fetched after it. A byte that the format does not use is
dropped (rules R71, R77). -/
def Op.build (o : Op) (a b : Byte) : Instr :=
  match o with
  | .hlt => .hlt
  | .ret => .ret
  | .push => .push a
  | .pop => .pop a
  | .prn => .prn a
  | .call => .call a
  | .jmp => .jmp a
  | .jeq => .jeq a
  | .jne => .jne a
  | .ldi => .ldi a b
  | .add => .add a b
  | .mul => .mul a b
  | .cmp => .cmp a b

/-- Decode the three bytes the fetch_unit always latches (rules R71, R73, R75): none when the opcode is unknown. -/
def decodeBytes (op a b : Byte) : Option Instr := (Op.ofByte op).map fun o => o.build a b

/-- What decoding a run of bytes gives: an instruction and the bytes after it, or why there is none. -/
inductive Decoded where
  /-- an instruction, and the bytes that follow it -/
  | instr (i : Instr) (rest : List Byte)
  /-- the opcode byte is not one of the 13 (rule R74) -/
  | unknownOpcode (op : Byte)
  /-- the opcode is known, but the bytes end before the instruction's length -/
  | truncated (o : Op)
  /-- there is no byte -/
  | noBytes
  deriving DecidableEq, Repr

/-- Decode the first instruction of any run of bytes, at the length its opcode fixes (rules R70, R75). -/
def decode : List Byte → Decoded
  | [] => .noBytes
  | op :: rest =>
    match Op.ofByte op with
    | none => .unknownOpcode op
    | some o =>
      match o.format, rest with
      | .n, rest => .instr (o.build 0 0) rest
      | .r, a :: rest => .instr (o.build a 0) rest
      | .ri, a :: b :: rest => .instr (o.build a b) rest
      | .rr, a :: b :: rest => .instr (o.build a b) rest
      | _, _ => .truncated o

/-- The operand bytes of an instruction in the order they are stored (rule R70). -/
def Instr.operandBytes : Instr → List Byte
  | .hlt => []
  | .ret => []
  | .push a => [a]
  | .pop a => [a]
  | .prn a => [a]
  | .call a => [a]
  | .jmp a => [a]
  | .jeq a => [a]
  | .jne a => [a]
  | .ldi a imm => [a, imm]
  | .add a b => [a, b]
  | .mul a b => [a, b]
  | .cmp a b => [a, b]

/-- The bytes of an instruction, at ascending addresses (rules R55, R70, R72). -/
def encode (i : Instr) : List Byte := i.op.code :: i.operandBytes

/-- Byte `k` of an instruction whose bits are `w`, numbered as spec/opcode_table.json numbers them: bits `8k` to
`8k+7` of the `nbits` given, and zero above them. -/
def tableByte (nbits w k : Nat) : Byte := BitVec.ofNat 8 (w % 2 ^ nbits / 256 ^ k)

/-- The instruction the decoder reads from a table word (see `tableByte`). -/
def decodeTableWord (nbits w : Nat) : Option Instr :=
  decodeBytes (tableByte nbits w 0) (tableByte nbits w 1) (tableByte nbits w 2)

/-- The spelling of a register operand in assembly: `R` and its decimal index (rule R80). -/
def registerName (a : Byte) : String := "R" ++ toString a.toNat

/-- The assembly spelling of an instruction (rule R80). -/
def Instr.toAsm : Instr → String
  | .hlt => "HLT"
  | .ret => "RET"
  | .push a => "PUSH " ++ registerName a
  | .pop a => "POP " ++ registerName a
  | .prn a => "PRN " ++ registerName a
  | .call a => "CALL " ++ registerName a
  | .jmp a => "JMP " ++ registerName a
  | .jeq a => "JEQ " ++ registerName a
  | .jne a => "JNE " ++ registerName a
  | .ldi a imm => "LDI " ++ registerName a ++ "," ++ toString imm.toNat
  | .add a b => "ADD " ++ registerName a ++ "," ++ registerName b
  | .mul a b => "MUL " ++ registerName a ++ "," ++ registerName b
  | .cmp a b => "CMP " ++ registerName a ++ "," ++ registerName b

end Sys2Proof
end

