-- ==== Sys2Proof/Machine/Fetch.lean ====
section
/-! DEFINITION. The fetch_unit (rules R71, R101), the decoding of what it latched, and the two ways a step goes that
run no handler: an unknown opcode (rule R102) and a core that cannot step (rule R100). -/

namespace Sys2Proof.Machine

/-- The three bytes at pc, pc +8 1 and pc +8 2, read whatever the opcode; the addresses wrap (rules R52, R101). -/
def State.fetchedBytes (s : State) : Latch :=
  { op := s.byteAt s.pc, a := s.byteAt (s.pc + 1), b := s.byteAt (s.pc + 2) }

/-- The fetch_unit: latch the three bytes; nothing else changes (rule R101). -/
def State.fetch (s : State) : State := s.latch s.fetchedBytes

/-- The instruction the latch holds, or none for an unknown opcode (rule R73). -/
def State.latchedInstr (s : State) : Option Instr := decodeBytes s.ir.op s.ir.a s.ir.b

/-- A latched opcode with no handler raises UnknownInstruction, detail 0, before anything else (rules R102, R211). -/
def unknownOpcode (s : State) : Result := .next (s.raise .unknownInstruction 0)

/-- A terminal core takes no step: its whole state stays (rules R100, R107, R225; log entry 3). -/
def noStep (s : State) : Result := .next s

/-- Store the three bytes of a table word where the next fetch reads them. -/
def State.storeAtPc (s : State) (op a b : Byte) : State :=
  ((s.writeByte s.pc op).writeByte (s.pc + 1) a).writeByte (s.pc + 2) b

end Sys2Proof.Machine
end

