-- ==== Sys2Proof/Machine/Step.lean ====
section
/-! DEFINITION. The execution_loop_controller's step (rule R100). -/

namespace Sys2Proof.Machine

/-- One step: if the core can step, fetch three bytes, decode, and run the handler or raise UnknownInstruction
(rule R100). -/
def step (s : State) : Host.Outcome State Fault Refusal :=
  if s.canStep then
    match s.fetch.latchedInstr with
    | some i => exec i s.fetch
    | none => unknownOpcode s.fetch
  else noStep s

/-- The state with the instruction of a table word where step fetches its next instruction. The core must be able to
step for that fetch to happen, so RUN and FAULT are put to their reset values too; both have them in every state that
can step. -/
def State.withFetchWord (s : State) (nbits w : Nat) : State :=
  { s.storeAtPc (tableByte nbits w 0) (tableByte nbits w 1) (tableByte nbits w 2) with
    run := true, fault := FaultRecord.clear }

end Sys2Proof.Machine
end

