-- ==== Sys2Proof/Machine/Control.lean ====
section
/-! DEFINITION. The decoder's control word and the datapath it drives (rules R73, R76, R104): the hardware reading of
the handlers. `exec` does not use this file; the instruction rules govern (rule R76, conflict C11), and that the two
agree is a statement of its own. -/

namespace Sys2Proof.Machine

/-- Column `rdA`: when the instruction reads `x[ir.a]`. -/
inductive ReadA where
  | no
  | yes
  | afterSp
  | ifEqual
  | ifNotEqual
  deriving DecidableEq, Repr

/-- Column `reg_we`: what is written to `x[ir.a]`. Writes of SP are column `sp_op`. -/
inductive RegSource where
  | none
  | immediate
  | aluResult
  | stackByte
  deriving DecidableEq, Repr

/-- Column `sp_op`: the change of SP. -/
inductive SpOp where
  | none
  | decFirst
  | incAfter
  deriving DecidableEq, Repr

/-- Column `mem`: the access at the stack address. -/
inductive StackAccess where
  | none
  | writeRegA
  | writeReturn
  | read
  deriving DecidableEq, Repr

/-- Column `pc_next`: the next pc. -/
inductive PcNext where
  | advance (len : Byte)
  | regA
  | stackByte
  | regAIfEqual
  | regAIfNotEqual
  deriving DecidableEq, Repr

/-- The control word of rule R76, one field per column. -/
structure ControlWord where
  rdA : ReadA
  rdB : Bool
  aluOp : Option (BitVec 3)
  regWe : RegSource
  spOp : SpOp
  mem : StackAccess
  flWe : Bool
  pcNext : PcNext
  runClr : Bool
  outEn : Bool
  deriving DecidableEq, Repr

/-- The table of rule R76, a row per instruction in the table's order of columns. -/
def controlWordOf : Op → ControlWord
  | .ldi => ⟨.no, false, none, .immediate, .none, .none, false, .advance 3, false, false⟩
  | .prn => ⟨.yes, false, none, .none, .none, .none, false, .advance 2, false, true⟩
  | .hlt => ⟨.no, false, none, .none, .none, .none, false, .advance 1, true, false⟩
  | .mul => ⟨.yes, true, some 2, .aluResult, .none, .none, false, .advance 3, false, false⟩
  | .add => ⟨.yes, true, some 0, .aluResult, .none, .none, false, .advance 3, false, false⟩
  | .cmp => ⟨.yes, true, some 4, .none, .none, .none, true, .advance 3, false, false⟩
  | .push => ⟨.afterSp, false, none, .none, .decFirst, .writeRegA, false, .advance 2, false, false⟩
  | .pop => ⟨.no, false, none, .stackByte, .incAfter, .read, false, .advance 2, false, false⟩
  | .call => ⟨.afterSp, false, none, .none, .decFirst, .writeReturn, false, .regA, false, false⟩
  | .ret => ⟨.no, false, none, .none, .incAfter, .read, false, .stackByte, false, false⟩
  | .jmp => ⟨.yes, false, none, .none, .none, .none, false, .regA, false, false⟩
  | .jeq => ⟨.ifEqual, false, none, .none, .none, .none, false, .regAIfEqual, false, false⟩
  | .jne => ⟨.ifNotEqual, false, none, .none, .none, .none, false, .regAIfNotEqual, false, false⟩

/-- The decoder's whole output for an opcode byte: the instruction's identity and its control word, or none when the
byte is unknown (rule R73). -/
def decoderOutput (op : Byte) : Option (Op × ControlWord) :=
  (Op.ofByte op).map fun o => (o, controlWordOf o)

/-- Whether the instruction accesses `x[ir.a]`, by a read or a write: only then is its index checked (rule R24). -/
def ControlWord.accessesA (c : ControlWord) (fl : Flags) : Bool :=
  match c.rdA with
  | .no => decide (c.regWe ≠ .none)
  | .yes => true
  | .afterSp => true
  | .ifEqual => fl.e
  | .ifNotEqual => !fl.e

/-- The next pc that the control word selects, from the old pc, the value on read port A and the byte at the stack
address. -/
def PcNext.target (n : PcNext) (s : State) (portA top : Byte) : Byte :=
  match n with
  | .advance len => s.pc + len
  | .regA => portA
  | .stackByte => top
  | .regAIfEqual => if s.fl.e then portA else s.pc + 2
  | .regAIfNotEqual => if s.fl.e then s.pc + 2 else portA

/-- The write to `x[ir.a]` that the control word selects. -/
def RegSource.apply (src : RegSource) (r : Reg) (imm top : Byte) (aluOut : Option AluOut) (s : State) : State :=
  match src, aluOut with
  | .immediate, _ => s.writeReg r imm
  | .stackByte, _ => s.writeReg r top
  | .aluResult, some (.result v) => s.writeReg r v
  | _, _ => s

/-- The flags that are written, when the control word enables them. -/
def flagWrite (enable : Bool) (aluOut : Option AluOut) (s : State) : State :=
  match enable, aluOut with
  | true, some (.flags f) => s.setFlags f
  | _, _ => s

/-- The store at the stack address that the control word selects. -/
def StackAccess.apply (m : StackAccess) (portA ret : Byte) (s : State) : State :=
  match m with
  | .writeRegA => s.storeTop portA
  | .writeReturn => s.storeTop ret
  | .read => s
  | .none => s

/-- The datapath once the register checks have passed: `ra` is the register that operand_a selects, and
`aluOut` is what the alu drives, if it is used. -/
def datapath (c : ControlWord) (ra : Reg) (aluOut : Option AluOut) (s : State) : State :=
  let s1 := if c.spOp = .decFirst then s.decSp else s
  let portA := s1.reg ra
  let top := s1.loadTop
  let s2 := c.mem.apply portA (s.pc + 2) s1
  let s3 := c.regWe.apply ra s.ir.b top aluOut s2
  let s4 := if c.spOp = .incAfter then s3.incSp else s3
  let s5 := flagWrite c.flWe aluOut s4
  let s6 := if c.runClr then s5.halt else s5
  let s7 := if c.outEn then s6.emit portA else s6
  s7.setPc (c.pcNext.target s portA top)

/-- The register that an operand byte selects at a port. A byte of 8 or more has been rejected, or its port is unused,
by the time this counts (rule R24). -/
def portIndex (operand : Byte) : Reg := ⟨operand.toNat % 8, Nat.mod_lt _ (by decide)⟩

/-- The dispatch_mux applied to a control word and the latched bytes (rule R104): the register checks in the order of
rule R216, an alu fault if the alu drives one, and else the datapath. -/
def dispatchMux (c : ControlWord) (s : State) : Result :=
  if c.accessesA s.fl && decide (8 ≤ s.ir.a.toNat) then .next (s.raise .registerIndexFault s.ir.a)
  else if c.rdB && decide (8 ≤ s.ir.b.toNat) then .next (s.raise .registerIndexFault s.ir.b)
  else
    match c.aluOp.map fun op => alu op (s.reg (portIndex s.ir.a)) (s.reg (portIndex s.ir.b)) with
    | some (.fault kind) => .next (s.raise kind 0)
    | aluOut => .next (datapath c (portIndex s.ir.a) aluOut s)

end Sys2Proof.Machine
end

