-- ==== Sys2Proof/Machine/Session.lean ====
section
/-! DEFINITION. What surrounds a step: reset with any `INIT_MEMORY`, the load, and the run to its end (rules R57, R107,
R108, R240 to R245). -/

namespace Sys2Proof.Machine

/-- The core right after reset, for a given `INIT_MEMORY` (rules R57, R240). `State.reset` is the case of
`Config.unlistedByte` everywhere. -/
def State.resetWith (initMemory : Byte → Byte) : State :=
  { State.reset with mem := Memory.ofFun initMemory }

/-- Write bytes at ascending addresses, in order (rule R242). -/
def storeBytes (addr : Byte) : List Byte → State → State
  | [], s => s
  | v :: vs, s => storeBytes (addr + 1) vs (s.writeByte addr v)

/-- The load's writes: bytes 0 to n-1 at `LOAD_BASE` upward; no other state changes (rule R242). -/
def State.load (program : List Byte) (s : State) : State := storeBytes Config.loadBase program s

/-- `run()` with a bound on the steps it may take: some final state once the core is terminal, none if it is not
terminal after that many steps (rules R107, R108). A core that is already terminal takes none. -/
def runFor : Nat → State → Option State
  | 0, s => if s.terminal then some s else none
  | k + 1, s =>
    if s.terminal then some s
    else match step s with
      | .next t => runFor k t
      | .fault _ => none
      | .refused _ => none

/-- Where the host stands with one core: the order is reset, load, run (rule R243). -/
inductive Phase where
  /-- constructed, not loaded -/
  | fresh
  /-- loaded, not run -/
  | loaded
  /-- a run has returned -/
  | returned
  /-- a load was refused: the core is never run (again) (rule R242) -/
  | refused
  deriving DecidableEq, Repr

/-- One core and where its host stands with it. -/
structure Session where
  phase : Phase
  core : State
  deriving DecidableEq, Repr

/-- Why a load is refused (rule R242; decision D14). Which reason is named when several hold is the model's choice
(log entry 5). -/
inductive LoadRefusal where
  | notFresh
  | tooLong
  | valueOutOfRange
  deriving DecidableEq, Repr

/-- What a load gives: it is accepted, or refused with a reason. -/
inductive LoadResult where
  | accepted (u : Session)
  | refused (why : LoadRefusal) (u : Session)
  deriving DecidableEq, Repr

/-- What a bounded run gives: the host gets control back, the core is still stepping, or the host may not run it. -/
inductive RunResult where
  | returned (u : Session)
  | stillRunning
  | notAllowed
  deriving DecidableEq, Repr

/-- Construction of a fresh instance, which is the only reset (rule R240; decision D26). -/
def Session.construct (initMemory : Byte → Byte) : Session :=
  { phase := .fresh, core := State.resetWith initMemory }

/-- A refused load writes nothing, and the instance never runs (rules R226, R242). -/
def Session.refuse (u : Session) (why : LoadRefusal) : LoadResult := .refused why { u with phase := .refused }

/-- `load(bytes)`: once, on a fresh instance, at most `MAX_PROGRAM` values, each in 0 to 255 (rule R242). -/
def Session.load (values : List Int) (u : Session) : LoadResult :=
  if u.phase ≠ .fresh then u.refuse .notFresh
  else if Config.maxProgram < values.length then u.refuse .tooLong
  else if values.all fun v => decide (0 ≤ v ∧ v ≤ 255) then
    .accepted { phase := .loaded, core := u.core.load (values.map fun v => BitVec.ofInt 8 v) }
  else u.refuse .valueOutOfRange

/-- `run()`, with a bound on its steps: after a load, or again after a run has returned (rules R107, R243). -/
def Session.run (k : Nat) (u : Session) : RunResult :=
  match u.phase with
  | .fresh => .notAllowed
  | .refused => .notAllowed
  | .loaded | .returned =>
    match runFor k u.core with
    | some t => .returned { phase := .returned, core := t }
    | none => .stillRunning

end Sys2Proof.Machine
end

