-- ==== Sys2Proof/Safety.lean ====
section
/-! DEFINITION. What claims are stated in: how a run ends, what one instruction keeps, and the invariant that every
step keeps. -/

namespace Sys2Proof.Machine

/-- Halted: the running bit is 0 (rule R10). -/
def State.Halted (s : State) : Prop := s.run = false

/-- Faulted: the fault record holds a fault (rule R10). -/
def State.Faulted (s : State) : Prop := s.fault.kind ≠ .none

/-- The run from `s` ends in `t` (rule R108). -/
def Ends (s t : State) : Prop := ∃ k, runFor k s = some t

/-- A run that is not terminal after every finite number of steps is a hang and has no outcome (rule R108). -/
def Hangs (s : State) : Prop := ∀ k, runFor k s = none

/-- A safe run: it ends, halted, with no fault. -/
def SafeRun (s : State) : Prop := ∃ t, Ends s t ∧ t.Halted ∧ ¬ t.Faulted

/-- Every byte of memory reads as before. -/
def SameMemory (s t : State) : Prop := ∀ addr, t.byteAt addr = s.byteAt addr

/-- Every byte of memory reads as before, but for the byte at `addr`, which reads as `v`. -/
def StoresOnly (s t : State) (addr v : Byte) : Prop :=
  t.byteAt addr = v ∧ ∀ other, other ≠ addr → t.byteAt other = s.byteAt other

/-- Every register holds what it held. -/
def SameRegs (s t : State) : Prop := ∀ r, t.reg r = s.reg r

/-- Register `r` holds `v` and every other register holds what it held. -/
def WritesOnlyReg (s t : State) (r : Reg) (v : Byte) : Prop :=
  t.reg r = v ∧ ∀ q, q ≠ r → t.reg q = s.reg q

/-- RUN, FAULT and the latch are as before: no instruction that completes writes them, but HLT, which writes RUN. -/
def SameControl (s t : State) : Prop := t.run = s.run ∧ t.fault = s.fault ∧ t.ir = s.ir

/-- `t` is `s` with exactly FAULT written, as rule R213 says it is. -/
def RaisesOnly (s t : State) (kind : FaultKind) (detail : Byte) : Prop :=
  t = { s with fault :=
          { kind := kind, pc := s.pc, opcode := s.ir.op, operandA := s.ir.a, operandB := s.ir.b, detail := detail } }

/-- The invariant that every step keeps (rules R31, R34, R35, R109, R210 to R213). -/
structure State.Inv (s : State) : Prop where
  /-- memory is in its one form -/
  mem_wf : Memory.wf s.mem
  /-- none of E, L and G is set, or exactly one (rule R31) -/
  flags_atMostOne : ¬ (s.fl.e = true ∧ s.fl.l = true) ∧ ¬ (s.fl.e = true ∧ s.fl.g = true) ∧
    ¬ (s.fl.l = true ∧ s.fl.g = true)
  /-- with no fault, the whole record is as reset left it (rule R35) -/
  record_clear : s.fault.kind = .none → s.fault = FaultRecord.clear
  /-- only the two faults that instructions reach are ever recorded (rules R109, R214, R215) -/
  kind_reachable : s.fault.kind = .none ∨ s.fault.kind = .unknownInstruction ∨ s.fault.kind = .registerIndexFault
  /-- a fault leaves RUN set and records pc and the latched bytes (rules R34, R213) -/
  record_precise : s.fault.kind ≠ .none → s.run = true ∧ s.fault.pc = s.pc ∧ s.fault.opcode = s.ir.op ∧
    s.fault.operandA = s.ir.a ∧ s.fault.operandB = s.ir.b
  /-- UnknownInstruction is about a byte outside the table, with detail 0 (rule R211) -/
  record_unknown : s.fault.kind = .unknownInstruction → Op.ofByte s.fault.opcode = none ∧ s.fault.detail = 0
  /-- RegisterIndexFault is about a known opcode and names an operand byte of 8 or more (rule R212) -/
  record_register : s.fault.kind = .registerIndexFault → Op.ofByte s.fault.opcode ≠ none ∧ 8 ≤ s.fault.detail.toNat ∧
    (s.fault.detail = s.fault.operandA ∨ s.fault.detail = s.fault.operandB)

end Sys2Proof.Machine
end

