-- ==== Sys2Proof/WellFormed.lean ====
section
/-! DEFINITION. When an instruction is well formed: each operand byte that names a register names one of the eight
(rules R20, R24, R77). An ill-formed instruction still decodes and still runs (rules R24, R78): if it accesses the
register it raises RegisterIndexFault, and JEQ or JNE not taken completes. -/

namespace Sys2Proof

/-- The operand bytes that name a register (rule R77). LDI's second operand is an immediate and is not one. -/
def Instr.registerOperands : Instr → List Byte
  | .hlt => []
  | .ret => []
  | .push a => [a]
  | .pop a => [a]
  | .prn a => [a]
  | .call a => [a]
  | .jmp a => [a]
  | .jeq a => [a]
  | .jne a => [a]
  | .ldi a _ => [a]
  | .add a b => [a, b]
  | .mul a b => [a, b]
  | .cmp a b => [a, b]

/-- Every register operand names a register (rule R24). -/
def Instr.wf (i : Instr) : Bool := i.registerOperands.all fun a => decide (a.toNat < Config.numRegs)

end Sys2Proof
end

