-- ==== Sys2Proof/Certificates/Slice0/Obligations.lean ====
section
/-! DEFINITION. The statements about the model, for the provers. Each docstring names the rule or section of the spec
that it formalises; where a clause rests on a decision of the spec or a choice of the model, the docstring says so. -/

open Sys2Proof Sys2Proof.Machine

/-! ### Encoding and decoding -/

/-- Words written out from the spec's encodings (30_encoding.md sections 1 and 2, 95_test_vectors.md). The opcode
values of MUL, PUSH, POP, CALL, RET, CMP, JMP, JEQ and JNE are the spec's decision D8. -/
def Obligations.EncodedWordsDecode : Prop :=
  decode [0x82, 0x00, 0x08, 0x47, 0x00, 0x01] = .instr (.ldi 0 8) [0x47, 0x00, 0x01] ∧
  decode [0x47, 0x00, 0x01] = .instr (.prn 0) [0x01] ∧
  decode [0x01] = .instr .hlt [] ∧
  decode [0xA0, 0x00, 0x01] = .instr (.add 0 1) [] ∧
  decode [0xA2, 0x02, 0x03] = .instr (.mul 2 3) [] ∧
  decode [0xA7, 0x00, 0x02] = .instr (.cmp 0 2) [] ∧
  decode [0x45, 0x02] = .instr (.push 2) [] ∧
  decode [0x46, 0x07] = .instr (.pop 7) [] ∧
  decode [0x50, 0x01] = .instr (.call 1) [] ∧
  decode [0x11, 0x55] = .instr .ret [0x55] ∧
  decode [0x54, 0x03] = .instr (.jmp 3) [] ∧
  decode [0x55, 0x09] = .instr (.jeq 9) [] ∧
  decode [0x56, 0xFF] = .instr (.jne 255) [] ∧
  decode [0xA1, 0x00, 0x01] = .unknownOpcode 0xA1 ∧
  decode [0x00] = .unknownOpcode 0x00

/-- Decode and encode agree: for EVERY instruction and every operand byte, decoding its encoding, whatever bytes
follow, gives the instruction back and leaves those bytes; and the three bytes a fetch latches decode to the same
instruction, whatever stands in the bytes past its end (30_encoding.md sections 1 to 3). -/
def Obligations.DecodeInvertsEncode : Prop :=
  ∀ (i : Instr) (rest : List Byte),
    decode (encode i ++ rest) = .instr i rest ∧
    ∀ op a b more, encode i ++ rest = op :: a :: b :: more → decodeBytes op a b = some i

/-- Each run of bytes has one reading: what decodes to an instruction is the instruction's encoding and the bytes after
it (30_encoding.md sections 2 and 3). -/
def Obligations.EncodeInvertsDecode : Prop :=
  ∀ (bytes rest : List Byte) (i : Instr), decode bytes = .instr i rest → bytes = encode i ++ rest

/-- Exactly the 13 opcode bytes of the table are known; each of the other 243 makes a core that can step raise
UnknownInstruction with the opcode and its address, after which it can take no step (30_encoding.md section 2,
40_execution_loop.md section 3; the value 0xA1 of SUB and 0xA3 of DIV are the spec's general knowledge). -/
def Obligations.OtherOpcodesAreUnknown : Prop :=
  ((List.range 256).countP fun k => (Op.ofByte (BitVec.ofNat 8 k)).isNone) = 243 ∧
  (∀ op : Byte, Op.ofByte op = none ↔ ∀ o : Op, o.code ≠ op) ∧
  (∀ op ∈ [(0x00 : Byte), 0xFF, 0xA1, 0xA3], ∀ o : Op, o.code ≠ op) ∧
  ∀ s : State, s.run = true → s.fault.kind = .none → (∀ o : Op, o.code ≠ s.byteAt s.pc) →
    ∃ t, step s = .next t ∧ t.fault.kind = .unknownInstruction ∧ t.fault.opcode = s.byteAt s.pc ∧
      t.fault.pc = s.pc ∧ t.canStep = false

/-! ### The step -/

/-- A step of a core that can step is the handler of the instruction that the three bytes at pc, pc +8 1 and pc +8 2
decode to, run on the state with those bytes latched; the step adds nothing else, and no pc advance of its own
(40_execution_loop.md sections 1, 2 and 4). -/
def Obligations.StepRunsDecodedInstruction : Prop :=
  ∀ (s : State) (i : Instr), s.run = true → s.fault.kind = .none →
    decodeBytes (s.byteAt s.pc) (s.byteAt (s.pc + 1)) (s.byteAt (s.pc + 2)) = some i →
    step s = exec i
      { s with ir := { op := s.byteAt s.pc, a := s.byteAt (s.pc + 1), b := s.byteAt (s.pc + 2) } }

/-- Rules R102 and R211: an opcode byte with no handler makes the step raise UnknownInstruction, recording the kind
(code 1), the address of the opcode byte, the byte, the two bytes after it and detail 0. No register, memory byte, FL,
pc, RUN or OUT changes, and the controller can take no further step. -/
def Obligations.UnknownOpcodeIsRecorded : Prop :=
  ∀ s : State, s.run = true → s.fault.kind = .none → Op.ofByte (s.byteAt s.pc) = none →
    ∃ t, step s = .next t ∧
      t.fault.kind = .unknownInstruction ∧ t.fault.kind.code = 1 ∧ t.fault.pc = s.pc ∧
      t.fault.opcode = s.byteAt s.pc ∧ t.fault.operandA = s.byteAt (s.pc + 1) ∧
      t.fault.operandB = s.byteAt (s.pc + 2) ∧ t.fault.detail = 0 ∧
      SameRegs s t ∧ SameMemory s t ∧ t.fl = s.fl ∧ t.pc = s.pc ∧ t.run = s.run ∧ t.out = s.out ∧
      t.canStep = false

/-- A halted or faulted core keeps its whole state for any number of steps, so a fault is terminal and sticky
(40_execution_loop.md section 5, 60_exceptions.md sections 3 and 6; decision D19). That the model answers the
unchanged state, and not a stop, is the model's reading of 'no step; state unchanged' (log entry 3). -/
def Obligations.TerminalCoreKeepsItsState : Prop :=
  ∀ (s : State) (k : Nat), s.run = false ∨ s.fault.kind ≠ .none →
    Host.Core.run Sys2Proof.core k s = .next s ∧ runFor k s = some s

/-- Every step of every state answers a next state: no fetch and no memory access can fault, and a fatal error is a
next state with FAULT written (20_memory.md section 1, 60_exceptions.md section 1; decisions D2, D12 and D19). That a
fault of the core is a next state, and that a terminal core's step answers its own state, are the model's readings
(log entries 10 and 3). -/
def Obligations.EveryStepAnswersNext : Prop := ∀ s : State, ∃ t, step s = .next t

/-- Every step keeps the invariant `State.Inv`: the memory's one form, at most one of E, L and G, a fault record that
is clear or tells precisely which instruction faulted and why, and only the two reachable fault kinds
(rules behind each field: see `State.Inv`; log entries 1 and 4 for the memory's form and the latch). -/
def Obligations.StepKeepsInvariant : Prop :=
  ∀ s t : State, s.Inv → step s = .next t → t.Inv

/-- The invariant holds right after reset (log entry 1 for the memory that reset leaves). -/
def Obligations.ResetMeetsInvariant : Prop := State.Inv State.reset

/-- The invariant holds right after reset for every `INIT_MEMORY`, and after every accepted load
(70_reset_and_hazards.md sections 1 and 2; decision D13). The memory's list form, one of the invariant's fields, is the
model's choice (log entry 1). -/
def Obligations.LoadedCoreMeetsInvariant : Prop :=
  ∀ (initMemory : Byte → Byte) (values : List Int),
    (State.resetWith initMemory).Inv ∧
    ∀ u, Session.load values (Session.construct initMemory) = .accepted u → u.core.Inv

/-! ### The arithmetic family -/

/-- Rule R140, whole: the encoding `A0 a b`; with both registers in range ADD writes the sum modulo 256 to Ra and
advances by 3, and writes nothing else; an operand of 8 or more raises RegisterIndexFault, operand_a first. -/
def Obligations.AddWritesWrappedSum : Prop :=
  (∀ a b : Byte, encode (.add a b) = [0xA0, a, b] ∧ decodeBytes 0xA0 a b = some (.add a b)) ∧
  (∀ (a b : Byte) (s : State) (ha : a.toNat < 8) (hb : b.toNat < 8), ∃ t, exec (.add a b) s = .next t ∧
    WritesOnlyReg s t ⟨a.toNat, ha⟩
      (BitVec.ofNat 8 (((s.reg ⟨a.toNat, ha⟩).toNat + (s.reg ⟨b.toNat, hb⟩).toNat) % 256)) ∧
    t.pc = s.pc + 3 ∧ t.fl = s.fl ∧ t.out = s.out ∧ SameMemory s t ∧ SameControl s t) ∧
  (∀ (a b : Byte) (s : State), 8 ≤ a.toNat →
    ∃ t, exec (.add a b) s = .next t ∧ RaisesOnly s t .registerIndexFault a) ∧
  (∀ (a b : Byte) (s : State), a.toNat < 8 → 8 ≤ b.toNat →
    ∃ t, exec (.add a b) s = .next t ∧ RaisesOnly s t .registerIndexFault b)

/-- MUL (41_alu.md section 2): the low 8 bits of the product go to Ra, no flag changes, pc advances by 3; the faults
are those of ADD (decisions D3 and D25). -/
def Obligations.MulWritesLowProduct : Prop :=
  (∀ (a b : Byte) (s : State) (ha : a.toNat < 8) (hb : b.toNat < 8), ∃ t, exec (.mul a b) s = .next t ∧
    WritesOnlyReg s t ⟨a.toNat, ha⟩
      (BitVec.ofNat 8 (((s.reg ⟨a.toNat, ha⟩).toNat * (s.reg ⟨b.toNat, hb⟩).toNat) % 256)) ∧
    t.pc = s.pc + 3 ∧ t.fl = s.fl ∧ t.out = s.out ∧ SameMemory s t ∧ SameControl s t) ∧
  (∀ (a b : Byte) (s : State), 8 ≤ a.toNat →
    ∃ t, exec (.mul a b) s = .next t ∧ RaisesOnly s t .registerIndexFault a) ∧
  (∀ (a b : Byte) (s : State), a.toNat < 8 → 8 ≤ b.toNat →
    ∃ t, exec (.mul a b) s = .next t ∧ RaisesOnly s t .registerIndexFault b)

/-- CMP (41_alu.md section 2): exactly one of E, L and G is set, by the unsigned comparison (decision D6); no register
and no memory byte changes; pc advances by 3; on a fault FL is unchanged (decisions D3 and D25). -/
def Obligations.CmpSetsExactlyOneFlag : Prop :=
  (∀ (a b : Byte) (s : State) (ha : a.toNat < 8) (hb : b.toNat < 8), ∃ t, exec (.cmp a b) s = .next t ∧
    (t.fl.e = true ↔ (s.reg ⟨a.toNat, ha⟩).toNat = (s.reg ⟨b.toNat, hb⟩).toNat) ∧
    (t.fl.l = true ↔ (s.reg ⟨a.toNat, ha⟩).toNat < (s.reg ⟨b.toNat, hb⟩).toNat) ∧
    (t.fl.g = true ↔ (s.reg ⟨b.toNat, hb⟩).toNat < (s.reg ⟨a.toNat, ha⟩).toNat) ∧
    t.pc = s.pc + 3 ∧ SameRegs s t ∧ t.out = s.out ∧ SameMemory s t ∧ SameControl s t) ∧
  (∀ (a b : Byte) (s : State), 8 ≤ a.toNat →
    ∃ t, exec (.cmp a b) s = .next t ∧ RaisesOnly s t .registerIndexFault a) ∧
  (∀ (a b : Byte) (s : State), a.toNat < 8 → 8 ≤ b.toNat →
    ∃ t, exec (.cmp a b) s = .next t ∧ RaisesOnly s t .registerIndexFault b)

/-- The alu block (41_alu.md section 1; codes are decision D24, DIV is D4, SUB is D5): what codes 0 to 4 drive for all
operands, UnsupportedOperation for codes 5, 6 and 7, and DivideByZero for DIV by zero. -/
def Obligations.AluBlockComputes : Prop :=
  ∀ x y : Byte,
    alu 0 x y = .result (BitVec.ofNat 8 ((x.toNat + y.toNat) % 256)) ∧
    alu 1 x y = .result (BitVec.ofInt 8 (((x.toNat : Int) - y.toNat) % 256)) ∧
    alu 2 x y = .result (BitVec.ofNat 8 ((x.toNat * y.toNat) % 256)) ∧
    (y ≠ 0 → alu 3 x y = .result (BitVec.ofNat 8 (x.toNat / y.toNat))) ∧
    alu 3 x 0 = .fault .divideByZero ∧
    (∃ f, alu 4 x y = .flags f ∧ (f.e = true ↔ x.toNat = y.toNat) ∧ (f.l = true ↔ x.toNat < y.toNat) ∧
      (f.g = true ↔ y.toNat < x.toNat)) ∧
    ∀ op : BitVec 3, 5 ≤ op.toNat → alu op x y = .fault .unsupportedOperation

/-- What a handler does with any `alu_op` code, the unreachable ones too (41_alu.md section 1, 60_exceptions.md
section 1; decisions D4, D12 and D24): an alu fault is raised before any result is written, with detail 0. -/
def Obligations.AluFaultsAreRaisedBeforeAnyWrite : Prop :=
  (∀ (op : BitVec 3) (a b : Byte) (s : State), a.toNat < 8 → b.toNat < 8 → 5 ≤ op.toNat →
    ∃ t, aluHandler op a b s = .next t ∧ RaisesOnly s t .unsupportedOperation 0) ∧
  (∀ (a b : Byte) (s : State) (_ : a.toNat < 8) (hb : b.toNat < 8), s.reg ⟨b.toNat, hb⟩ = 0 →
    ∃ t, aluHandler 3 a b s = .next t ∧ RaisesOnly s t .divideByZero 0)

/-! ### The data movement family -/

/-- Rule R160, whole: the encoding `82 a imm`; with Ra in range LDI copies the immediate byte to Ra and advances by 3,
and writes nothing else (LDI R7 so sets SP); an operand_a of 8 or more raises RegisterIndexFault; and a HLT right after
it leaves the register holding the immediate and RUN clear. -/
def Obligations.LdiLoadsImmediate : Prop :=
  (∀ a imm : Byte, encode (.ldi a imm) = [0x82, a, imm] ∧ decodeBytes 0x82 a imm = some (.ldi a imm)) ∧
  (∀ (a imm : Byte) (s : State) (ha : a.toNat < 8), ∃ t, exec (.ldi a imm) s = .next t ∧
    WritesOnlyReg s t ⟨a.toNat, ha⟩ imm ∧
    t.pc = s.pc + 3 ∧ t.fl = s.fl ∧ t.out = s.out ∧ SameMemory s t ∧ SameControl s t) ∧
  (∀ (a imm : Byte) (s : State), 8 ≤ a.toNat →
    ∃ t, exec (.ldi a imm) s = .next t ∧ RaisesOnly s t .registerIndexFault a) ∧
  ∀ (a imm : Byte) (s : State) (ha : a.toNat < 8), ∃ t u, exec (.ldi a imm) s = .next t ∧ exec .hlt t = .next u ∧
    u.reg ⟨a.toNat, ha⟩ = imm ∧ u.run = false

/-- PRN (42_data_movement.md; the byte-valued port is decision D16, and that the host takes every byte is log
entry 6): the value of Ra is appended to OUT, pc advances by 2, no register, flag or memory byte changes; with an
operand of 8 or more nothing is emitted. -/
def Obligations.PrnEmitsRegister : Prop :=
  (∀ (a : Byte) (s : State) (ha : a.toNat < 8), ∃ t, exec (.prn a) s = .next t ∧
    t.out = s.out ++ [s.reg ⟨a.toNat, ha⟩] ∧
    t.pc = s.pc + 2 ∧ SameRegs s t ∧ t.fl = s.fl ∧ SameMemory s t ∧ SameControl s t) ∧
  (∀ (a : Byte) (s : State), 8 ≤ a.toNat →
    ∃ t, exec (.prn a) s = .next t ∧ RaisesOnly s t .registerIndexFault a)

/-! ### The stack family -/

/-- PUSH (43_stack.md; decision D11 for the order of effects): SP is decremented, and the byte at the new SP becomes
the value of Ra read after that, so PUSH R7 stores the new SP; nothing else changes but pc, which advances by 2. -/
def Obligations.PushStoresBelowStackTop : Prop :=
  (∀ (a : Byte) (s : State) (ha : a.toNat < 8), Memory.wf s.mem → ∃ t, exec (.push a) s = .next t ∧
    WritesOnlyReg s t 7 (s.sp - 1) ∧
    StoresOnly s t (s.sp - 1) (if a = 7 then s.sp - 1 else s.reg ⟨a.toNat, ha⟩) ∧
    t.pc = s.pc + 2 ∧ t.fl = s.fl ∧ t.out = s.out ∧ SameControl s t) ∧
  (∀ (a : Byte) (s : State), 8 ≤ a.toNat →
    ∃ t, exec (.push a) s = .next t ∧ RaisesOnly s t .registerIndexFault a)

/-- POP (43_stack.md; decision D11): Ra gets the byte at SP and SP is incremented; POP R7 leaves that byte plus 1 in
SP; no memory byte changes, and pc advances by 2. -/
def Obligations.PopLoadsStackTop : Prop :=
  (∀ (a : Byte) (s : State) (ha : a.toNat < 8), ∃ t, exec (.pop a) s = .next t ∧
    (a = 7 → WritesOnlyReg s t 7 (s.byteAt s.sp + 1)) ∧
    (a ≠ 7 → t.reg ⟨a.toNat, ha⟩ = s.byteAt s.sp ∧ t.sp = s.sp + 1 ∧
      ∀ q : Reg, q.val ≠ a.toNat → q ≠ 7 → t.reg q = s.reg q) ∧
    t.pc = s.pc + 2 ∧ t.fl = s.fl ∧ t.out = s.out ∧ SameMemory s t ∧ SameControl s t) ∧
  (∀ (a : Byte) (s : State), 8 ≤ a.toNat →
    ∃ t, exec (.pop a) s = .next t ∧ RaisesOnly s t .registerIndexFault a)

/-- The balance property of 43_stack.md: PUSH then POP of one register leaves every register, SP included, as before,
for R7 too (which the spec derives), and changes no memory byte but the one below the old top. -/
def Obligations.PushThenPopRestoresRegisters : Prop :=
  ∀ (a : Byte) (s : State), a.toNat < 8 → Memory.wf s.mem →
    ∃ t u, exec (.push a) s = .next t ∧ exec (.pop a) t = .next u ∧ SameRegs s u ∧ u.sp = s.sp ∧
      ∀ addr, addr ≠ s.sp - 1 → u.byteAt addr = s.byteAt addr

/-! ### The control transfer family -/

/-- CALL (44_control_transfer.md; decision D11): SP is decremented, the return address pc +8 2 is stored at the new SP,
and pc gets the value of Ra read after the decrement, so CALL R7 jumps to the new SP. -/
def Obligations.CallPushesReturnAddress : Prop :=
  (∀ (a : Byte) (s : State) (ha : a.toNat < 8), Memory.wf s.mem → ∃ t, exec (.call a) s = .next t ∧
    WritesOnlyReg s t 7 (s.sp - 1) ∧ StoresOnly s t (s.sp - 1) (s.pc + 2) ∧
    t.pc = (if a = 7 then s.sp - 1 else s.reg ⟨a.toNat, ha⟩) ∧
    t.fl = s.fl ∧ t.out = s.out ∧ SameControl s t) ∧
  (∀ (a : Byte) (s : State), 8 ≤ a.toNat →
    ∃ t, exec (.call a) s = .next t ∧ RaisesOnly s t .registerIndexFault a)

/-- RET (44_control_transfer.md): pc gets the byte at SP and SP is incremented, in every state; nothing else changes. -/
def Obligations.RetPopsProgramCounter : Prop :=
  ∀ s : State, ∃ t, exec .ret s = .next t ∧ t.pc = s.byteAt s.sp ∧ WritesOnlyReg s t 7 (s.sp + 1) ∧
    t.fl = s.fl ∧ t.out = s.out ∧ SameMemory s t ∧ SameControl s t

/-- The property of 44_control_transfer.md: after a CALL at pc = c, a RET run in any later state whose SP is what the
CALL left and whose byte there still is what the CALL stored goes to c +8 2 and leaves SP as before the CALL. -/
def Obligations.RetReturnsPastCall : Prop :=
  ∀ (a : Byte) (s u : State), a.toNat < 8 → Memory.wf s.mem →
    ∃ t, exec (.call a) s = .next t ∧
      (u.sp = t.sp → u.byteAt t.sp = t.byteAt t.sp →
        ∃ v, exec .ret u = .next v ∧ v.pc = s.pc + 2 ∧ v.sp = s.sp)

/-- JMP (44_control_transfer.md): pc gets the value of Ra whatever FL holds, and nothing else changes. -/
def Obligations.JmpAlwaysJumps : Prop :=
  (∀ (a : Byte) (s : State) (ha : a.toNat < 8), ∃ t, exec (.jmp a) s = .next t ∧
    t.pc = s.reg ⟨a.toNat, ha⟩ ∧
    SameRegs s t ∧ t.fl = s.fl ∧ t.out = s.out ∧ SameMemory s t ∧ SameControl s t) ∧
  (∀ (a : Byte) (s : State), 8 ≤ a.toNat →
    ∃ t, exec (.jmp a) s = .next t ∧ RaisesOnly s t .registerIndexFault a)

/-- JEQ (44_control_transfer.md): with E set pc gets the value of Ra, or RegisterIndexFault is raised for an operand of
8 or more; with E clear pc advances by 2, whatever the operand byte (decision D3). -/
def Obligations.JeqJumpsIfEqual : Prop :=
  (∀ (a : Byte) (s : State) (ha : a.toNat < 8), s.fl.e = true → ∃ t, exec (.jeq a) s = .next t ∧
    t.pc = s.reg ⟨a.toNat, ha⟩ ∧
    SameRegs s t ∧ t.fl = s.fl ∧ t.out = s.out ∧ SameMemory s t ∧ SameControl s t) ∧
  (∀ (a : Byte) (s : State), s.fl.e = false → ∃ t, exec (.jeq a) s = .next t ∧
    t.pc = s.pc + 2 ∧
    SameRegs s t ∧ t.fl = s.fl ∧ t.out = s.out ∧ SameMemory s t ∧ SameControl s t) ∧
  (∀ (a : Byte) (s : State), s.fl.e = true → 8 ≤ a.toNat →
    ∃ t, exec (.jeq a) s = .next t ∧ RaisesOnly s t .registerIndexFault a)

/-- JNE (44_control_transfer.md): with E clear pc gets the value of Ra, or RegisterIndexFault is raised for an operand
of 8 or more; with E set pc advances by 2, whatever the operand byte (decision D3). -/
def Obligations.JneJumpsIfNotEqual : Prop :=
  (∀ (a : Byte) (s : State) (ha : a.toNat < 8), s.fl.e = false → ∃ t, exec (.jne a) s = .next t ∧
    t.pc = s.reg ⟨a.toNat, ha⟩ ∧
    SameRegs s t ∧ t.fl = s.fl ∧ t.out = s.out ∧ SameMemory s t ∧ SameControl s t) ∧
  (∀ (a : Byte) (s : State), s.fl.e = true → ∃ t, exec (.jne a) s = .next t ∧
    t.pc = s.pc + 2 ∧
    SameRegs s t ∧ t.fl = s.fl ∧ t.out = s.out ∧ SameMemory s t ∧ SameControl s t) ∧
  (∀ (a : Byte) (s : State), s.fl.e = false → 8 ≤ a.toNat →
    ∃ t, exec (.jne a) s = .next t ∧ RaisesOnly s t .registerIndexFault a)

/-! ### The system family -/

/-- Rule R200, whole: the encoding `01`; HLT clears RUN and advances pc by 1 in every state, changes nothing else, and
the core is then terminal: it can take no step, and a later run returns it at once. -/
def Obligations.HltClearsRun : Prop :=
  encode .hlt = [0x01] ∧ (∀ a b : Byte, decodeBytes 0x01 a b = some .hlt) ∧
  ∀ s : State, ∃ t, exec .hlt s = .next t ∧ t.run = false ∧ t.pc = s.pc + 1 ∧
    SameRegs s t ∧ t.fl = s.fl ∧ t.fault = s.fault ∧ t.ir = s.ir ∧ t.out = s.out ∧ SameMemory s t ∧
    t.terminal = true ∧ t.canStep = false ∧ ∀ k, runFor k t = some t

/-! ### Rules over all instructions -/

/-- A well-formed instruction completes in every state and raises no fault (10_state.md section 1 and 60_exceptions.md
section 1: HLT and RET never raise one, and every other one only for an operand of 8 or more). -/
def Obligations.WellFormedInstructionNeverFaults : Prop :=
  ∀ (i : Instr) (s : State), i.wf = true → ∃ t, exec i s = .next t ∧ t.fault = s.fault

/-- Rule R31, whole: FL is written by CMP alone, which sets exactly one of E, L and G; no other instruction, fault,
step of a terminal core or load writes it; reset leaves none of the three set. -/
def Obligations.OnlyCompareWritesFlags : Prop :=
  (∀ (i : Instr) (s t : State), exec i s = .next t → (∀ a b, i ≠ .cmp a b) → t.fl = s.fl) ∧
  (∀ (a b : Byte) (s : State), a.toNat < 8 → b.toNat < 8 → ∃ t, exec (.cmp a b) s = .next t ∧
    (t.fl = { e := true, l := false, g := false } ∨ t.fl = { e := false, l := true, g := false } ∨
      t.fl = { e := false, l := false, g := true })) ∧
  (∀ (i : Instr) (s t : State), exec i s = .next t → s.fault.kind = .none → t.fault.kind ≠ .none → t.fl = s.fl) ∧
  (∀ s t : State, step s = .next t → t.fl ≠ s.fl →
    ∃ a b, decodeBytes (s.byteAt s.pc) (s.byteAt (s.pc + 1)) (s.byteAt (s.pc + 2)) = some (.cmp a b)) ∧
  (∀ (program : List Byte) (s : State), (s.load program).fl = s.fl) ∧
  ∀ initMemory, (State.resetWith initMemory).fl = { e := false, l := false, g := false }

/-- Rule R32: no instruction reads L or G, and only JEQ and JNE read E. Two runs of one instruction whose states differ
in FL alone, and agree on E if the instruction is JEQ or JNE, end in states that differ in FL alone; with E different
JEQ and JNE do go different ways. -/
def Obligations.OnlyBranchesReadEqual : Prop :=
  (∀ (i : Instr) (s t : State) (f : Flags), exec i s = .next t →
    (f.e = s.fl.e ∨ ∀ a, i ≠ .jeq a ∧ i ≠ .jne a) →
    ∃ u, exec i { s with fl := f } = .next u ∧ { u with fl := t.fl } = t) ∧
  ∀ (a : Byte) (s : State) (ha : a.toNat < 8), s.reg ⟨a.toNat, ha⟩ ≠ s.pc + 2 →
    (∃ t u, exec (.jeq a) { s with fl := { s.fl with e := true } } = .next t ∧
      exec (.jeq a) { s with fl := { s.fl with e := false } } = .next u ∧ t.pc ≠ u.pc) ∧
    (∃ t u, exec (.jne a) { s with fl := { s.fl with e := true } } = .next t ∧
      exec (.jne a) { s with fl := { s.fl with e := false } } = .next u ∧ t.pc ≠ u.pc)

/-- Rule R34: RUN is 1 after reset; HLT writes it with 0, and nothing else writes it: no other instruction, no fault
and no load; no step sets it back to 1; the controller steps only while RUN = 1 and the fault record is empty, so a step
that changes anything is one of a core with both. -/
def Obligations.OnlyHaltWritesRun : Prop :=
  (∀ initMemory, (State.resetWith initMemory).run = true) ∧
  (∀ (i : Instr) (s t : State), exec i s = .next t → t.run = if i = .hlt then false else s.run) ∧
  (∀ s t : State, step s = .next t → t.run ≠ s.run → s.run = true ∧ t.run = false ∧
    decodeBytes (s.byteAt s.pc) (s.byteAt (s.pc + 1)) (s.byteAt (s.pc + 2)) = some .hlt) ∧
  (∀ s t : State, step s = .next t → s.fault.kind = .none → t.fault.kind ≠ .none → t.run = true) ∧
  (∀ (program : List Byte) (s : State), (s.load program).run = s.run) ∧
  ∀ s t : State, step s = .next t → t ≠ s → s.run = true ∧ s.fault.kind = .none

/-- Memory is written by PUSH and CALL alone, at the decremented SP alone (20_memory.md section 1, which derives it;
conflict C2): a step, or an instruction, that changes how any byte reads is one of the two, and no fault changes one. -/
def Obligations.OnlyPushAndCallWriteMemory : Prop :=
  (∀ (i : Instr) (s t : State) (addr : Byte), exec i s = .next t → t.byteAt addr ≠ s.byteAt addr →
    (∃ a, i = .push a ∨ i = .call a) ∧ addr = s.sp - 1 ∧ t.fault = s.fault) ∧
  ∀ (s t : State) (addr : Byte), step s = .next t → t.byteAt addr ≠ s.byteAt addr →
    (∃ a, decodeBytes (s.byteAt s.pc) (s.byteAt (s.pc + 1)) (s.byteAt (s.pc + 2)) = some (.push a) ∨
      decodeBytes (s.byteAt s.pc) (s.byteAt (s.pc + 1)) (s.byteAt (s.pc + 2)) = some (.call a)) ∧
    addr = s.sp - 1

/-- OUT only grows, by one byte at a time and by PRN alone (10_state.md section 5; decision D16). -/
def Obligations.OnlyPrnAppendsOutput : Prop :=
  (∀ (i : Instr) (s t : State), exec i s = .next t →
    t.out = s.out ∨ ∃ (a : Byte) (ha : a.toNat < 8), i = .prn a ∧ t.out = s.out ++ [s.reg ⟨a.toNat, ha⟩]) ∧
  ∀ s t : State, step s = .next t → t.out ≠ s.out → ∃ v, t.out = s.out ++ [v] ∧
    ∃ a, decodeBytes (s.byteAt s.pc) (s.byteAt (s.pc + 1)) (s.byteAt (s.pc + 2)) = some (.prn a)

/-- Which registers an instruction may write (10_state.md section 1, which derives the table): LDI, ADD and MUL write
Ra, POP writes Ra and SP, PUSH, CALL and RET write SP, and the others write none. -/
def Obligations.RegistersWrittenByEachInstruction : Prop :=
  ∀ (i : Instr) (s t : State) (q : Reg), exec i s = .next t → t.reg q ≠ s.reg q →
    (∃ a b, (i = .ldi a b ∨ i = .add a b ∨ i = .mul a b ∨ i = .pop a) ∧ q.val = a.toNat) ∨
    ((i = .ret ∨ ∃ a, i = .push a ∨ i = .pop a ∨ i = .call a) ∧ q = 7)

/-- Faults are precise and steps are atomic (40_execution_loop.md section 3, 60_exceptions.md section 1; decision D12):
a step that raises a fault changes FAULT alone, apart from the latch that its fetch fills (log entry 4), and records
the unchanged pc and the three bytes fetched. -/
def Obligations.FaultingStepChangesOnlyFault : Prop :=
  ∀ s t : State, step s = .next t → s.fault.kind = .none → t.fault.kind ≠ .none →
    { t with fault := s.fault, ir := s.ir } = s ∧ t.fault.pc = s.pc ∧
    t.fault.opcode = s.byteAt s.pc ∧ t.fault.operandA = s.byteAt (s.pc + 1) ∧
    t.fault.operandB = s.byteAt (s.pc + 2)

/-- The handlers of ADD, MUL and CMP use the alu codes 0, 2 and 4 alone, the control word gives those codes to no other
instruction, and no instruction and no step ever records UnsupportedOperation (40_execution_loop.md section 5,
30_encoding.md section 3, 41_alu.md section 1; the codes are decision D24, and the control word as a second description
beside the handlers is the model's, log entry 18). -/
def Obligations.NoHandlerReachesUnsupportedOperation : Prop :=
  (∀ (a b : Byte) (s : State), exec (.add a b) s = aluHandler 0 a b s ∧ exec (.mul a b) s = aluHandler 2 a b s ∧
    exec (.cmp a b) s = aluHandler 4 a b s) ∧
  (∀ o : Op, ((controlWordOf o).aluOp = none ∧ o ≠ .add ∧ o ≠ .mul ∧ o ≠ .cmp) ∨
    ((controlWordOf o).aluOp = some 0 ∧ o = .add) ∨ ((controlWordOf o).aluOp = some 2 ∧ o = .mul) ∨
    ((controlWordOf o).aluOp = some 4 ∧ o = .cmp)) ∧
  (∀ (i : Instr) (s t : State), exec i s = .next t → t.fault.kind = .unsupportedOperation → t.fault = s.fault) ∧
  ∀ s t : State, step s = .next t → t.fault.kind = .unsupportedOperation → t = s

/-- The fault that a step reports is the first failing check (60_exceptions.md section 2; decision D25): the opcode,
then operand_a, then operand_b. -/
def Obligations.FirstFailingCheckIsReported : Prop :=
  ∀ s t : State, step s = .next t → s.fault.kind = .none → t.fault.kind ≠ .none →
    (t.fault.kind = .unknownInstruction ∧ t.fault.detail = 0 ∧ Op.ofByte (s.byteAt s.pc) = none) ∨
    (t.fault.kind = .registerIndexFault ∧ t.fault.detail = s.byteAt (s.pc + 1) ∧
      Op.ofByte (s.byteAt s.pc) ≠ none ∧ 8 ≤ (s.byteAt (s.pc + 1)).toNat) ∨
    (t.fault.kind = .registerIndexFault ∧ t.fault.detail = s.byteAt (s.pc + 2) ∧
      (s.byteAt (s.pc + 1)).toNat < 8 ∧ 8 ≤ (s.byteAt (s.pc + 2)).toNat ∧
      ∃ a b, decodeBytes (s.byteAt s.pc) (s.byteAt (s.pc + 1)) (s.byteAt (s.pc + 2)) = some (.add a b) ∨
        decodeBytes (s.byteAt s.pc) (s.byteAt (s.pc + 1)) (s.byteAt (s.pc + 2)) = some (.mul a b) ∨
        decodeBytes (s.byteAt s.pc) (s.byteAt (s.pc + 1)) (s.byteAt (s.pc + 2)) = some (.cmp a b))

/-- Bytes past an instruction's end have no effect (30_encoding.md section 1): what the latch holds is read by a handler
only to fill the fault record. Two runs of one instruction whose states differ in the latch alone end in states that
differ in the latch and in what FAULT copies from it alone. That exec takes its operands from the instruction and only
fault entry reads the latch, also where the latch holds other bytes than the instruction's, is the model's choice
(log entry 13); in a step the two agree (40_execution_loop.md section 4). -/
def Obligations.LatchIsReadOnlyByFaultEntry : Prop :=
  (∀ (o : Op) (a b c : Byte), (o.length = 1 → o.build a b = o.build b c) ∧ (o.length = 2 → o.build a b = o.build a c)) ∧
  ∀ (i : Instr) (s t : State) (ir : Latch), exec i s = .next t →
    ∃ u, exec i { s with ir := ir } = .next u ∧ u.mem = t.mem ∧ u.regs = t.regs ∧ u.pc = t.pc ∧ u.fl = t.fl ∧
      u.run = t.run ∧ u.out = t.out ∧ u.ir = ir ∧ u.fault.kind = t.fault.kind ∧ u.fault.pc = t.fault.pc ∧
      u.fault.detail = t.fault.detail ∧ (t.fault.kind = .none → u.fault = t.fault)

/-- The decoder's control word, applied by the dispatch_mux, gives for every instruction and every state what the
handler gives (30_encoding.md section 3, 40_execution_loop.md section 4; conflict C11, decision D24). The datapath, and
the order in which it applies the control word's columns, are the model's second description of the handlers
(log entry 18). -/
def Obligations.ControlWordDatapathEqualsHandlers : Prop :=
  ∀ (s : State) (o : Op) (c : ControlWord), decoderOutput s.ir.op = some (o, c) →
    dispatchMux c s = exec (o.build s.ir.a s.ir.b) s

/-! ### Memory, fetch and self-modification -/

/-- Rule R51: in a memory of canonical form, which every step keeps, a write changes how exactly the one byte it names
reads, and no other state; and a read, being a function of the state, changes none.
The premise on the form rules out only lists that no run reaches (log entry 1). -/
def Obligations.WriteChangesExactlyOneByte : Prop :=
  ∀ (s : State) (addr v : Byte), Memory.wf s.mem →
    (s.writeByte addr v).byteAt addr = v ∧
    (∀ other, other ≠ addr → (s.writeByte addr v).byteAt other = s.byteAt other) ∧
    { s.writeByte addr v with mem := s.mem } = s

/-- A byte written twice leaves the state that the second write alone leaves (20_memory.md section 4: a read gives the
most recent write). That the two states are equal as data, and not only read alike, rests on the memory's canonical
form, which is the model's choice (log entry 1). -/
def Obligations.SecondWriteReplacesFirst : Prop :=
  ∀ (s : State) (addr v w : Byte), Memory.wf s.mem →
    (s.writeByte addr w).writeByte addr v = s.writeByte addr v

/-- Equal memories are equal data: two memories of canonical form that read the same at every address are one list
(20_memory.md section 1; the form is the model's, log entry 1). -/
def Obligations.CanonicalMemoryIsUnique : Prop :=
  ∀ m m' : Memory, Memory.wf m → Memory.wf m' → (∀ addr, m.read addr = m'.read addr) → m = m'

/-- Rule R25: no register is hard-wired or read-only and none is banked: each of the eight, register 0 too, reads back
what is written to it and is left alone by a write to another, and a write of a register writes no other state. -/
def Obligations.EveryRegisterIsOrdinary : Prop :=
  ∀ (s : State) (r q : Reg) (v : Byte),
    (s.writeReg r v).reg r = v ∧ (q ≠ r → (s.writeReg r v).reg q = s.reg q) ∧
    { s.writeReg r v with regs := s.regs } = s

/-- A fetch sees every earlier write, and a step uses the bytes it latched (20_memory.md section 4; decision D10,
conflict C7): a CALL whose push overwrites its own operand byte still jumps through the register that the fetched byte
names, and the overwritten byte is what a later fetch there reads. -/
def Obligations.CallUsesTheFetchedOperand : Prop :=
  ∀ (s : State) (a : Byte) (ha : a.toNat < 8), Memory.wf s.mem → s.run = true → s.fault.kind = .none →
    Op.ofByte (s.byteAt s.pc) = some .call → s.byteAt (s.pc + 1) = a → a ≠ 7 → s.sp = s.pc + 2 →
    ∃ t, step s = .next t ∧ t.pc = s.reg ⟨a.toNat, ha⟩ ∧ t.byteAt (s.pc + 1) = s.pc + 2 ∧
      (t.setPc s.pc).fetchedBytes.a = s.pc + 2

/-- The fetch latches the bytes at pc, pc +8 1 and pc +8 2 with wrapped addresses, and changes nothing but the latch
(40_execution_loop.md section 2; decision D2 for the wrap). -/
def Obligations.FetchLatchesThreeWrappedBytes : Prop :=
  ∀ s : State,
    s.fetch.ir.op = s.byteAt s.pc ∧
    s.fetch.ir.a = s.byteAt (BitVec.ofNat 8 ((s.pc.toNat + 1) % 256)) ∧
    s.fetch.ir.b = s.byteAt (BitVec.ofNat 8 ((s.pc.toNat + 2) % 256)) ∧
    { s.fetch with ir := s.ir } = s

/-! ### Reset, load and run -/

/-- Rules R22 and R33: registers 0 to 6 hold 0 and register 7 holds 0xF4 after reset, and FL is 0 with E, L and G
clear. -/
def Obligations.ResetRegistersAndFlags : Prop :=
  ∀ initMemory : Byte → Byte,
    (∀ r : Reg, r ≠ 7 → (State.resetWith initMemory).reg r = 0) ∧
    (State.resetWith initMemory).reg 7 = 0xF4 ∧
    (State.resetWith initMemory).fl = { e := false, l := false, g := false } ∧
    (State.resetWith initMemory).fl.toByte = 0

/-- The rest of reset (70_reset_and_hazards.md section 1; decisions D12, D13 and D16): pc is 0, RUN is 1, FAULT is NONE
with every field 0, OUT is empty, and every byte of memory is `INIT_MEMORY` of its address, whatever that is. The latch
is left out: its reset value is the model's choice (log entry 2). -/
def Obligations.ResetLeavesCoreReady : Prop :=
  ∀ initMemory : Byte → Byte,
    (State.resetWith initMemory).pc = 0 ∧ (State.resetWith initMemory).run = true ∧
    (State.resetWith initMemory).fault.kind.code = 0 ∧
    (State.resetWith initMemory).fault = ⟨.none, 0, 0, 0, 0, 0⟩ ∧
    (State.resetWith initMemory).out = [] ∧ (State.resetWith initMemory).canStep = true ∧
    ∀ addr, (State.resetWith initMemory).byteAt addr = initMemory addr

/-- The load (70_reset_and_hazards.md section 2; decisions D14 and D15): on a fresh core, at most 256 values in 0 to 255
go to addresses 0 upward, every other byte keeps `INIT_MEMORY`, and no other state changes. -/
def Obligations.LoadPlacesProgramAtZero : Prop :=
  ∀ (initMemory : Byte → Byte) (values : List Int), values.length ≤ 256 → (∀ v ∈ values, 0 ≤ v ∧ v ≤ 255) →
    ∃ u, Session.load values (Session.construct initMemory) = .accepted u ∧ u.phase = .loaded ∧
      (∀ addr : Byte, (u.core.byteAt addr).toNat =
        match values[addr.toNat]? with
        | some v => v.toNat
        | none => (initMemory addr).toNat) ∧
      { u.core with mem := (State.resetWith initMemory).mem } = State.resetWith initMemory

/-- The refused loads (70_reset_and_hazards.md section 2; decision D14): a sequence of more than 256 values, one with a
value outside 0 to 255, or a load on an instance that is not fresh leaves the core as it was, and the core is not run
after it. -/
def Obligations.BadLoadIsRefused : Prop :=
  ∀ (u : Session) (values : List Int),
    256 < values.length ∨ (∃ v ∈ values, v < 0 ∨ 255 < v) ∨ u.phase ≠ .fresh →
    ∃ why u', Session.load values u = .refused why u' ∧ u'.core = u.core ∧
      ∀ k, Session.run k u' = .notAllowed

/-- The outcome of a run (40_execution_loop.md section 5; decision D19): a run that ends, ends in one terminal state,
which more allowed steps do not change; it is reached by steps each of which the core could take; and a hang is a run
with no terminal state after any finite number of steps. That stepping on past the end answers the same state is the
model's reading (log entry 3). -/
def Obligations.RunOutcomeIsUnique : Prop :=
  (∀ s t t' : State, Ends s t → Ends s t' → t = t') ∧
  (∀ (k n : Nat) (s t : State), runFor k s = some t → runFor (k + n) s = some t ∧ t.terminal = true ∧
    Host.Core.run Sys2Proof.core k s = .next t) ∧
  (∀ (k : Nat) (s t : State), runFor k s = some t → ∃ j ≤ k, Host.Core.run Sys2Proof.core j s = .next t ∧
    ∀ (m : Nat) (u : State), m < j → Host.Core.run Sys2Proof.core m s = .next u → u.canStep = true) ∧
  ∀ s : State, Hangs s ↔ ∀ k t, Host.Core.run Sys2Proof.core k s = .next t → t.terminal = false

/-- FL and FAULT.kind as numbers (10_state.md sections 3 and 4; decisions D7 and D12): E is bit 0, G bit 1, L bit 2 and
bits 7 to 3 read as 0; the kinds have the codes 0 to 4, and no kind has 5 to 7. -/
def Obligations.HostViewOfFlagsAndFaultKind : Prop :=
  (∀ f : Flags, f.toByte.getLsbD 0 = f.e ∧ f.toByte.getLsbD 1 = f.g ∧ f.toByte.getLsbD 2 = f.l ∧ f.toByte.toNat < 8) ∧
  FaultKind.code .none = 0 ∧ FaultKind.code .unknownInstruction = 1 ∧ FaultKind.code .unsupportedOperation = 2 ∧
  FaultKind.code .registerIndexFault = 3 ∧ FaultKind.code .divideByZero = 4 ∧ ∀ k : FaultKind, k.code.toNat < 5
end

