-- ==== Sys2Proof/Laws/Decode.lean ====
section
/-! SUPPORT. The laws of the opcode table and of building an instruction from it. -/

namespace Sys2Proof

/-- The table gives each opcode value one row (rule R73). -/
@[simp] theorem Op.ofByte_code (o : Op) : Op.ofByte o.code = some o := by cases o <;> decide

/-- A byte that the table knows is the opcode value of the row found. -/
theorem Op.code_of_ofByte {byte : Byte} {o : Op} (h : Op.ofByte byte = some o) : o.code = byte := by
  simpa using List.find?_some h

@[simp] theorem Op.build_op (o : Op) (a b : Byte) : (o.build a b).op = o := by cases o <;> rfl

/-- What decoding three bytes gives. -/
theorem decodeBytes_eq_some {op a b : Byte} {i : Instr} :
    decodeBytes op a b = some i ↔ ∃ o, Op.ofByte op = some o ∧ o.build a b = i := by
  simp [decodeBytes]

end Sys2Proof
end

