-- ==== Sys2Proof/Laws/State.lean ====
section
/-! SUPPORT. One lemma per field per update of State, and the two reads (a register, a byte) through each update that
does not touch them. The composed operations (advance, decSp, incSp, storeTop, writeSp) unfold to these. -/

namespace Sys2Proof.Machine

variable (s : State)

@[simp] theorem State.writeReg_mem (r : Reg) (v : Byte) : (s.writeReg r v).mem = s.mem := rfl
@[simp] theorem State.writeReg_regs (r : Reg) (v : Byte) : (s.writeReg r v).regs = s.regs.set r v := rfl
@[simp] theorem State.writeReg_pc (r : Reg) (v : Byte) : (s.writeReg r v).pc = s.pc := rfl
@[simp] theorem State.writeReg_fl (r : Reg) (v : Byte) : (s.writeReg r v).fl = s.fl := rfl
@[simp] theorem State.writeReg_run (r : Reg) (v : Byte) : (s.writeReg r v).run = s.run := rfl
@[simp] theorem State.writeReg_fault (r : Reg) (v : Byte) : (s.writeReg r v).fault = s.fault := rfl
@[simp] theorem State.writeReg_ir (r : Reg) (v : Byte) : (s.writeReg r v).ir = s.ir := rfl
@[simp] theorem State.writeReg_out (r : Reg) (v : Byte) : (s.writeReg r v).out = s.out := rfl
@[simp] theorem State.writeReg_byteAt (r : Reg) (v : Byte) (p : Byte) : (s.writeReg r v).byteAt p = s.byteAt p := rfl

@[simp] theorem State.writeByte_mem (addr v : Byte) : (s.writeByte addr v).mem = Memory.write s.mem addr v := rfl
@[simp] theorem State.writeByte_regs (addr v : Byte) : (s.writeByte addr v).regs = s.regs := rfl
@[simp] theorem State.writeByte_pc (addr v : Byte) : (s.writeByte addr v).pc = s.pc := rfl
@[simp] theorem State.writeByte_fl (addr v : Byte) : (s.writeByte addr v).fl = s.fl := rfl
@[simp] theorem State.writeByte_run (addr v : Byte) : (s.writeByte addr v).run = s.run := rfl
@[simp] theorem State.writeByte_fault (addr v : Byte) : (s.writeByte addr v).fault = s.fault := rfl
@[simp] theorem State.writeByte_ir (addr v : Byte) : (s.writeByte addr v).ir = s.ir := rfl
@[simp] theorem State.writeByte_out (addr v : Byte) : (s.writeByte addr v).out = s.out := rfl
@[simp] theorem State.writeByte_reg (addr v : Byte) (q : Reg) : (s.writeByte addr v).reg q = s.reg q := rfl

@[simp] theorem State.setPc_mem (v : Byte) : (s.setPc v).mem = s.mem := rfl
@[simp] theorem State.setPc_regs (v : Byte) : (s.setPc v).regs = s.regs := rfl
@[simp] theorem State.setPc_pc (v : Byte) : (s.setPc v).pc = v := rfl
@[simp] theorem State.setPc_fl (v : Byte) : (s.setPc v).fl = s.fl := rfl
@[simp] theorem State.setPc_run (v : Byte) : (s.setPc v).run = s.run := rfl
@[simp] theorem State.setPc_fault (v : Byte) : (s.setPc v).fault = s.fault := rfl
@[simp] theorem State.setPc_ir (v : Byte) : (s.setPc v).ir = s.ir := rfl
@[simp] theorem State.setPc_out (v : Byte) : (s.setPc v).out = s.out := rfl
@[simp] theorem State.setPc_reg (v : Byte) (q : Reg) : (s.setPc v).reg q = s.reg q := rfl
@[simp] theorem State.setPc_byteAt (v : Byte) (p : Byte) : (s.setPc v).byteAt p = s.byteAt p := rfl

@[simp] theorem State.setFlags_mem (f : Flags) : (s.setFlags f).mem = s.mem := rfl
@[simp] theorem State.setFlags_regs (f : Flags) : (s.setFlags f).regs = s.regs := rfl
@[simp] theorem State.setFlags_pc (f : Flags) : (s.setFlags f).pc = s.pc := rfl
@[simp] theorem State.setFlags_fl (f : Flags) : (s.setFlags f).fl = f := rfl
@[simp] theorem State.setFlags_run (f : Flags) : (s.setFlags f).run = s.run := rfl
@[simp] theorem State.setFlags_fault (f : Flags) : (s.setFlags f).fault = s.fault := rfl
@[simp] theorem State.setFlags_ir (f : Flags) : (s.setFlags f).ir = s.ir := rfl
@[simp] theorem State.setFlags_out (f : Flags) : (s.setFlags f).out = s.out := rfl
@[simp] theorem State.setFlags_reg (f : Flags) (q : Reg) : (s.setFlags f).reg q = s.reg q := rfl
@[simp] theorem State.setFlags_byteAt (f : Flags) (p : Byte) : (s.setFlags f).byteAt p = s.byteAt p := rfl

@[simp] theorem State.halt_mem : s.halt.mem = s.mem := rfl
@[simp] theorem State.halt_regs : s.halt.regs = s.regs := rfl
@[simp] theorem State.halt_pc : s.halt.pc = s.pc := rfl
@[simp] theorem State.halt_fl : s.halt.fl = s.fl := rfl
@[simp] theorem State.halt_run : s.halt.run = false := rfl
@[simp] theorem State.halt_fault : s.halt.fault = s.fault := rfl
@[simp] theorem State.halt_ir : s.halt.ir = s.ir := rfl
@[simp] theorem State.halt_out : s.halt.out = s.out := rfl
@[simp] theorem State.halt_reg (q : Reg) : s.halt.reg q = s.reg q := rfl
@[simp] theorem State.halt_byteAt (p : Byte) : s.halt.byteAt p = s.byteAt p := rfl

@[simp] theorem State.latch_mem (ir : Latch) : (s.latch ir).mem = s.mem := rfl
@[simp] theorem State.latch_regs (ir : Latch) : (s.latch ir).regs = s.regs := rfl
@[simp] theorem State.latch_pc (ir : Latch) : (s.latch ir).pc = s.pc := rfl
@[simp] theorem State.latch_fl (ir : Latch) : (s.latch ir).fl = s.fl := rfl
@[simp] theorem State.latch_run (ir : Latch) : (s.latch ir).run = s.run := rfl
@[simp] theorem State.latch_fault (ir : Latch) : (s.latch ir).fault = s.fault := rfl
@[simp] theorem State.latch_ir (ir : Latch) : (s.latch ir).ir = ir := rfl
@[simp] theorem State.latch_out (ir : Latch) : (s.latch ir).out = s.out := rfl
@[simp] theorem State.latch_reg (ir : Latch) (q : Reg) : (s.latch ir).reg q = s.reg q := rfl
@[simp] theorem State.latch_byteAt (ir : Latch) (p : Byte) : (s.latch ir).byteAt p = s.byteAt p := rfl

@[simp] theorem State.emit_mem (v : Byte) : (s.emit v).mem = s.mem := rfl
@[simp] theorem State.emit_regs (v : Byte) : (s.emit v).regs = s.regs := rfl
@[simp] theorem State.emit_pc (v : Byte) : (s.emit v).pc = s.pc := rfl
@[simp] theorem State.emit_fl (v : Byte) : (s.emit v).fl = s.fl := rfl
@[simp] theorem State.emit_run (v : Byte) : (s.emit v).run = s.run := rfl
@[simp] theorem State.emit_fault (v : Byte) : (s.emit v).fault = s.fault := rfl
@[simp] theorem State.emit_ir (v : Byte) : (s.emit v).ir = s.ir := rfl
@[simp] theorem State.emit_out (v : Byte) : (s.emit v).out = s.out ++ [v] := rfl
@[simp] theorem State.emit_reg (v : Byte) (q : Reg) : (s.emit v).reg q = s.reg q := rfl
@[simp] theorem State.emit_byteAt (v : Byte) (p : Byte) : (s.emit v).byteAt p = s.byteAt p := rfl

@[simp] theorem State.raise_mem (k : FaultKind) (d : Byte) : (s.raise k d).mem = s.mem := rfl
@[simp] theorem State.raise_regs (k : FaultKind) (d : Byte) : (s.raise k d).regs = s.regs := rfl
@[simp] theorem State.raise_pc (k : FaultKind) (d : Byte) : (s.raise k d).pc = s.pc := rfl
@[simp] theorem State.raise_fl (k : FaultKind) (d : Byte) : (s.raise k d).fl = s.fl := rfl
@[simp] theorem State.raise_run (k : FaultKind) (d : Byte) : (s.raise k d).run = s.run := rfl
@[simp] theorem State.raise_fault (k : FaultKind) (d : Byte) : (s.raise k d).fault = ⟨k, s.pc, s.ir.op, s.ir.a, s.ir.b, d⟩ := rfl
@[simp] theorem State.raise_ir (k : FaultKind) (d : Byte) : (s.raise k d).ir = s.ir := rfl
@[simp] theorem State.raise_out (k : FaultKind) (d : Byte) : (s.raise k d).out = s.out := rfl
@[simp] theorem State.raise_reg (k : FaultKind) (d : Byte) (q : Reg) : (s.raise k d).reg q = s.reg q := rfl
@[simp] theorem State.raise_byteAt (k : FaultKind) (d : Byte) (p : Byte) : (s.raise k d).byteAt p = s.byteAt p := rfl

@[simp] theorem State.writeSp_eq (v : Byte) : s.writeSp v = s.writeReg spReg v := rfl
@[simp] theorem State.advance_eq (len : Byte) : s.advance len = s.setPc (s.pc + len) := rfl
@[simp] theorem State.decSp_eq : s.decSp = s.writeReg spReg (s.sp - 1) := rfl
@[simp] theorem State.incSp_eq : s.incSp = s.writeReg spReg (s.sp + 1) := rfl
@[simp] theorem State.storeTop_eq (v : Byte) : s.storeTop v = s.writeByte s.sp v := rfl
@[simp] theorem State.loadTop_eq : s.loadTop = s.byteAt s.sp := rfl

/-- SP is register 7 (rule R21). -/
@[simp] theorem State.sp_eq : s.sp = s.reg spReg := rfl

end Sys2Proof.Machine
end

