-- ==== Sys2Proof/Laws/Ops.lean ====
section
/-! SUPPORT. What each shared operation can do, said once: the operand check, the alu, the alu handler and the jump. -/

namespace Sys2Proof.Machine

theorem checkReg_of_lt {a : Byte} (h : a.toNat < 8) (s : State) (k : Reg → Result) :
    checkReg a s k = k ⟨a.toNat, h⟩ := dif_pos h

theorem checkReg_of_ge {a : Byte} (h : 8 ≤ a.toNat) (s : State) (k : Reg → Result) :
    checkReg a s k = .next (s.raise .registerIndexFault a) := dif_neg (by omega)

/-- The operand check goes on with the register that the operand names, or raises RegisterIndexFault. -/
theorem checkReg_next {a : Byte} {s t : State} {k : Reg → Result} (h : checkReg a s k = .next t) :
    (∃ ha : a.toNat < 8, k ⟨a.toNat, ha⟩ = .next t) ∨
      (8 ≤ a.toNat ∧ t = s.raise .registerIndexFault a) := by
  unfold checkReg at h
  split at h
  · exact .inl ⟨‹_›, h⟩
  · exact .inr ⟨by omega, by cases h; rfl⟩

@[simp] theorem AluKind.ofCode_code (k : AluKind) : AluKind.ofCode k.code = some k := by cases k <;> rfl

/-- What the alu drives for the code of each kind (rule R130). -/
theorem alu_code (k : AluKind) (x y : Byte) :
    alu k.code x y = match k with
      | .add => .result (x + y)
      | .sub => .result (x - y)
      | .mul => .result (x * y)
      | .div => if y = 0 then .fault .divideByZero else .result (x / y)
      | .cmp => .flags (Flags.compare x y) := by
  simp only [alu, AluKind.ofCode_code]
  cases k <;> rfl

/-- What the alu handler answers when it answers a next state: an operand is out of range, or the alu's output is
written or raised. -/
theorem aluHandler_next {op : BitVec 3} {a b : Byte} {s t : State} (h : aluHandler op a b s = .next t) :
    (8 ≤ a.toNat ∧ t = s.raise .registerIndexFault a) ∨
    (a.toNat < 8 ∧ 8 ≤ b.toNat ∧ t = s.raise .registerIndexFault b) ∨
    ∃ (ha : a.toNat < 8) (hb : b.toNat < 8),
      (∃ v, alu op (s.reg ⟨a.toNat, ha⟩) (s.reg ⟨b.toNat, hb⟩) = .result v ∧
        t = (s.writeReg ⟨a.toNat, ha⟩ v).advance 3) ∨
      (∃ f, alu op (s.reg ⟨a.toNat, ha⟩) (s.reg ⟨b.toNat, hb⟩) = .flags f ∧ t = (s.setFlags f).advance 3) ∨
      (∃ kind, alu op (s.reg ⟨a.toNat, ha⟩) (s.reg ⟨b.toNat, hb⟩) = .fault kind ∧ t = s.raise kind 0) := by
  obtain ⟨ha, h⟩ | h := checkReg_next h
  · obtain ⟨hb, h⟩ | ⟨hb, rfl⟩ := checkReg_next h
    · refine .inr (.inr ⟨ha, hb, ?_⟩)
      split at h <;> cases h
      · exact .inl ⟨_, ‹_›, rfl⟩
      · exact .inr (.inl ⟨_, ‹_›, rfl⟩)
      · exact .inr (.inr ⟨_, ‹_›, rfl⟩)
    · exact .inr (.inl ⟨ha, hb, rfl⟩)
  · exact .inl h

/-- What a jump through a register answers when it answers a next state. -/
theorem jumpToReg_next {a : Byte} {s t : State} (h : jumpToReg a s = .next t) :
    (∃ ha : a.toNat < 8, t = s.setPc (s.reg ⟨a.toNat, ha⟩)) ∨
      (8 ≤ a.toNat ∧ t = s.raise .registerIndexFault a) := by
  obtain ⟨ha, h⟩ | h := checkReg_next h
  · exact .inl ⟨ha, by cases h; rfl⟩
  · exact .inr h

end Sys2Proof.Machine
end

