-- ==== Sys2Proof/Laws/Exec.lean ====
section
/-! SUPPORT. Each arm of exec in the shared operations, so that no proof unfolds exec, and the one thing every arm has
in common: it answers a next state. -/

namespace Sys2Proof.Machine

variable (a b : Byte) (s : State)

theorem exec_hlt : exec .hlt s = .next (s.halt.advance 1) := rfl
theorem exec_ret : exec .ret s = .next (s.setPc s.loadTop).incSp := rfl
theorem exec_push : exec (.push a) s =
    checkReg a s fun ra => .next ((s.decSp.storeTop (s.decSp.reg ra)).advance 2) := rfl
theorem exec_pop : exec (.pop a) s =
    checkReg a s fun ra => .next ((s.writeReg ra s.loadTop).incSp.advance 2) := rfl
theorem exec_prn : exec (.prn a) s = checkReg a s fun ra => .next ((s.emit (s.reg ra)).advance 2) := rfl
theorem exec_call : exec (.call a) s =
    checkReg a s fun ra => .next ((s.decSp.storeTop (s.pc + 2)).setPc (s.decSp.reg ra)) := rfl
theorem exec_jmp : exec (.jmp a) s = jumpToReg a s := rfl
theorem exec_jeq : exec (.jeq a) s = if s.fl.e then jumpToReg a s else .next (s.advance 2) := rfl
theorem exec_jne : exec (.jne a) s = if s.fl.e then .next (s.advance 2) else jumpToReg a s := rfl
theorem exec_ldi : exec (.ldi a b) s = checkReg a s fun ra => .next ((s.writeReg ra b).advance 3) := rfl
theorem exec_add : exec (.add a b) s = aluHandler AluKind.add.code a b s := rfl
theorem exec_mul : exec (.mul a b) s = aluHandler AluKind.mul.code a b s := rfl
theorem exec_cmp : exec (.cmp a b) s = aluHandler AluKind.cmp.code a b s := rfl

variable {a b s}

/-- An operand check answers a next state if what follows it does. -/
theorem checkReg_answers {k : Reg → Result} (h : ∀ r, ∃ t, k r = .next t) : ∃ t, checkReg a s k = .next t := by
  unfold checkReg
  split
  · exact h _
  · exact ⟨_, rfl⟩

/-- The alu handler answers a next state for every code and operands. -/
theorem aluHandler_answers (op : BitVec 3) : ∃ t, aluHandler op a b s = .next t := by
  unfold aluHandler
  refine checkReg_answers fun ra => checkReg_answers fun rb => ?_
  split <;> exact ⟨_, rfl⟩

/-- The alu handler with both operands in range. -/
theorem aluHandler_of_lt (op : BitVec 3) (ha : a.toNat < 8) (hb : b.toNat < 8) : aluHandler op a b s =
    match alu op (s.reg ⟨a.toNat, ha⟩) (s.reg ⟨b.toNat, hb⟩) with
    | .result v => .next ((s.writeReg ⟨a.toNat, ha⟩ v).advance 3)
    | .flags f => .next ((s.setFlags f).advance 3)
    | .fault kind => .next (s.raise kind 0) :=
  (checkReg_of_lt ha _ _).trans (checkReg_of_lt hb _ _)

theorem aluHandler_of_ge_a (op : BitVec 3) (h : 8 ≤ a.toNat) :
    aluHandler op a b s = .next (s.raise .registerIndexFault a) := by
  unfold aluHandler
  rw [checkReg_of_ge h]

theorem aluHandler_of_ge_b (op : BitVec 3) (ha : a.toNat < 8) (h : 8 ≤ b.toNat) :
    aluHandler op a b s = .next (s.raise .registerIndexFault b) := by
  unfold aluHandler
  rw [checkReg_of_lt ha, checkReg_of_ge h]

theorem jumpToReg_of_lt (h : a.toNat < 8) : jumpToReg a s = .next (s.setPc (s.reg ⟨a.toNat, h⟩)) := by
  unfold jumpToReg
  rw [checkReg_of_lt h]

theorem jumpToReg_of_ge (h : 8 ≤ a.toNat) : jumpToReg a s = .next (s.raise .registerIndexFault a) := by
  unfold jumpToReg
  rw [checkReg_of_ge h]

end Sys2Proof.Machine
end

