-- ==== Sys2Proof/Laws/Memory.lean ====
section
/-! SUPPORT. The laws of the memory: a read after a write (rule R51), and that every memory operation keeps the
canonical form. -/

namespace Sys2Proof.Machine

namespace Memory

/-- The memory that lists nothing has the canonical form. -/
theorem wf_nil : wf [] := by decide

theorem read_eq (m : Memory) (addr : Byte) : m.read addr = (List.lookup addr.toNat m).getD Config.unlistedByte := rfl

/-- The lookup of the cell that `cons` puts in front. -/
theorem lookup_cons_self (k : Nat) (v : Byte) {m : Memory} (hm : List.lookup k m = none) :
    (List.lookup k (cons k v m)).getD Config.unlistedByte = v := by
  unfold cons
  split
  · simp [*]
  · simp [List.lookup]

theorem lookup_cons_other {j k : Nat} (v : Byte) (m : Memory) (h : j ≠ k) :
    List.lookup j (cons k v m) = List.lookup j m := by
  unfold cons
  split
  · rfl
  · simp [List.lookup, beq_eq_false_iff_ne.mpr h]

/-- A key below every key of a memory is not listed. -/
theorem lookup_eq_none {k : Nat} {m : Memory} (h : ∀ c ∈ m, k < c.1) : List.lookup k m = none := by
  induction m with
  | nil => rfl
  | cons c m ih =>
    have hc : (k == c.1) = false := beq_eq_false_iff_ne.mpr (h c (by simp)).ne
    simp only [List.lookup, hc]
    exact ih fun d hd => h d (by simp [hd])

/-- Storing changes no other key, whatever the form of the memory. -/
theorem lookup_insert_other {j k : Nat} (v : Byte) (m : Memory) (h : j ≠ k) :
    List.lookup j (insert k v m) = List.lookup j m := by
  induction m with
  | nil => exact lookup_cons_other v [] h
  | cons c m ih =>
    unfold insert
    split
    · exact lookup_cons_other v _ h
    · split
      · rename_i hk
        rw [lookup_cons_other v m h]
        simp [List.lookup, beq_eq_false_iff_ne.mpr (hk ▸ h)]
      · simp only [List.lookup]
        split <;> simp_all

/-- A stored key reads back, in a memory whose addresses rise. -/
theorem lookup_insert_self (k : Nat) (v : Byte) {m : Memory} (hm : m.Pairwise fun c d => c.1 < d.1) :
    (List.lookup k (insert k v m)).getD Config.unlistedByte = v := by
  induction m with
  | nil => exact lookup_cons_self k v rfl
  | cons c m ih =>
    obtain ⟨hc, hm⟩ := List.pairwise_cons.mp hm
    unfold insert
    split
    · rename_i hlt
      refine lookup_cons_self k v (lookup_eq_none fun d hd => ?_)
      rcases List.mem_cons.mp hd with rfl | hd
      · exact hlt
      · exact hlt.trans (hc d hd)
    · split
      · rename_i hk
        exact lookup_cons_self k v (lookup_eq_none fun d hd => hk ▸ hc d hd)
      · rename_i hk
        simp only [List.lookup, beq_eq_false_iff_ne.mpr hk]
        exact ih hm

/-- A byte written reads back (rule R51). -/
theorem read_write_same {m : Memory} (hm : wf m) (addr v : Byte) : (m.write addr v).read addr = v :=
  lookup_insert_self _ v hm.1

/-- A write leaves every other byte alone, whatever the form of the memory (rule R51). -/
theorem read_write_other (m : Memory) {addr other : Byte} (v : Byte) (h : other ≠ addr) :
    (m.write addr v).read other = m.read other := by
  have hn : other.toNat ≠ addr.toNat := fun e => h (BitVec.eq_of_toNat_eq e)
  simp [read, write, lookup_insert_other v m hn]

/-- The cells of a store are those of the memory and the stored one. -/
theorem mem_insert {k : Nat} {v : Byte} {m : Memory} {c : Host.Cell} (h : c ∈ insert k v m) :
    c ∈ m ∨ (c = (k, v) ∧ v ≠ Config.unlistedByte) := by
  have hcons : ∀ {m' : Memory}, c ∈ cons k v m' → c ∈ m' ∨ (c = (k, v) ∧ v ≠ Config.unlistedByte) := by
    intro m' h
    unfold cons at h
    split at h
    · exact .inl h
    · rcases List.mem_cons.mp h with rfl | h
      · exact .inr ⟨rfl, ‹_›⟩
      · exact .inl h
  induction m with
  | nil => exact hcons h
  | cons d m ih =>
    unfold insert at h
    split at h
    · exact hcons h
    · split at h
      · exact (hcons h).imp_left fun h => by simp [h]
      · rcases List.mem_cons.mp h with rfl | h
        · simp
        · exact (ih h).imp_left fun h => by simp [h]

/-- Putting a cell in front of greater keys keeps the addresses rising. -/
theorem pairwise_cons {k : Nat} {v : Byte} {m : Memory} (hk : ∀ c ∈ m, k < c.1)
    (hm : m.Pairwise fun c d => c.1 < d.1) : (cons k v m).Pairwise fun c d => c.1 < d.1 := by
  unfold cons
  split
  · exact hm
  · exact List.pairwise_cons.mpr ⟨hk, hm⟩

/-- A store keeps the addresses rising. -/
theorem pairwise_insert (k : Nat) (v : Byte) {m : Memory} (hm : m.Pairwise fun c d => c.1 < d.1) :
    (insert k v m).Pairwise fun c d => c.1 < d.1 := by
  induction m with
  | nil => exact pairwise_cons (by simp) hm
  | cons c m ih =>
    obtain ⟨hc, hm'⟩ := List.pairwise_cons.mp hm
    unfold insert
    split
    · rename_i hlt
      refine pairwise_cons (fun d hd => ?_) hm
      rcases List.mem_cons.mp hd with rfl | hd
      · exact hlt
      · exact hlt.trans (hc d hd)
    · split
      · rename_i hk
        exact pairwise_cons (fun d hd => hk ▸ hc d hd) hm'
      · refine List.pairwise_cons.mpr ⟨fun d hd => ?_, ih hm'⟩
        rcases mem_insert hd with hd | ⟨rfl, -⟩
        · exact hc d hd
        · show c.1 < k
          omega

/-- Every write keeps the canonical form. -/
theorem wf_write {m : Memory} (hm : wf m) (addr v : Byte) : wf (m.write addr v) := by
  refine ⟨pairwise_insert _ v hm.1, fun c hc => ?_⟩
  rcases mem_insert hc with hc | ⟨rfl, hv⟩
  · exact hm.2 c hc
  · exact ⟨addr.isLt, hv⟩

/-- Reading the cells made from a list of keys. -/
theorem lookup_filterMap (init : Byte → Byte) (j : Nat) (l : List Nat) :
    (List.lookup j (l.filterMap fun k =>
        if init (BitVec.ofNat 8 k) = Config.unlistedByte then none
        else some (k, init (BitVec.ofNat 8 k)))).getD Config.unlistedByte =
      if j ∈ l then init (BitVec.ofNat 8 j) else Config.unlistedByte := by
  induction l with
  | nil => rfl
  | cons k l ih =>
    by_cases hk : j = k
    · subst hk
      by_cases hv : init (BitVec.ofNat 8 j) = Config.unlistedByte
      · rw [List.filterMap_cons_none (by simp [hv]), ih]
        simp [hv]
      · rw [List.filterMap_cons_some (b := (j, init (BitVec.ofNat 8 j))) (by simp [hv])]
        simp [List.lookup]
    · have hmem : (j ∈ k :: l) = (j ∈ l) := by simp [hk]
      by_cases hv : init (BitVec.ofNat 8 k) = Config.unlistedByte
      · rw [List.filterMap_cons_none (by simp [hv]), ih]
        simp only [hmem]
      · rw [List.filterMap_cons_some (b := (k, init (BitVec.ofNat 8 k))) (by simp [hv])]
        simp only [List.lookup, beq_eq_false_iff_ne.mpr hk, hmem]
        exact ih

/-- The memory of a function reads as the function. -/
theorem read_ofFun (init : Byte → Byte) (addr : Byte) : (ofFun init).read addr = init addr := by
  have h : addr.toNat ∈ List.range Config.memSize := List.mem_range.mpr addr.isLt
  exact (lookup_filterMap init addr.toNat _).trans (by simp [h])

/-- The memory of a function has the canonical form. -/
theorem wf_ofFun (init : Byte → Byte) : wf (ofFun init) := by
  have hcell : ∀ k c, (if init (BitVec.ofNat 8 k) = Config.unlistedByte then none
      else some (k, init (BitVec.ofNat 8 k))) = some c → c.1 = k ∧ c.2 ≠ Config.unlistedByte := by
    intro k c h
    split at h
    · cases h
    · cases h
      exact ⟨rfl, ‹_›⟩
  refine ⟨?_, fun c hc => ?_⟩
  · refine List.pairwise_filterMap.mpr (List.pairwise_lt_range.imp ?_)
    intro j k hjk c hc d hd
    rw [(hcell j c hc).1, (hcell k d hd).1]
    exact hjk
  · obtain ⟨k, hk, hkc⟩ := List.mem_filterMap.mp hc
    obtain ⟨h1, h2⟩ := hcell k c hkc
    exact ⟨h1 ▸ List.mem_range.mp hk, h2⟩

end Memory

/-- A byte written to the state's memory reads back, and the others are as before (rule R51). -/
theorem State.byteAt_writeByte {s : State} (hm : Memory.wf s.mem) (addr v other : Byte) :
    (s.writeByte addr v).byteAt other = if other = addr then v else s.byteAt other := by
  split
  · subst_vars
    exact Memory.read_write_same hm _ v
  · exact Memory.read_write_other s.mem v ‹_›

/-- A byte at another address is as before, whatever the form of the memory. -/
theorem State.byteAt_writeByte_other (s : State) {addr other : Byte} (v : Byte) (h : other ≠ addr) :
    (s.writeByte addr v).byteAt other = s.byteAt other :=
  Memory.read_write_other s.mem v h

end Sys2Proof.Machine
end

