-- ==== Sys2Proof/Laws/PerInstr.lean ====
section
/-! SUPPORT. The family Layout: every instruction's encoding is its table opcode followed by its operand bytes, has
the length that its opcode fixes (rules R70, R75), and names registers only in operand bytes. -/

namespace Sys2Proof.Laws.Layout

/-- The encoding starts with the opcode, has the length of the opcode's format, and holds every register operand. -/
def Statement (i : Instr) : Prop :=
  (encode i).head? = some i.op.code ∧ (encode i).length = i.op.length ∧
    ∀ a ∈ i.registerOperands, a ∈ i.operandBytes

theorem hlt : Statement .hlt := ⟨rfl, rfl, by simp [Instr.registerOperands]⟩
theorem ret : Statement .ret := ⟨rfl, rfl, by simp [Instr.registerOperands]⟩
theorem push (a : Byte) : Statement (.push a) := ⟨rfl, rfl, by simp [Instr.registerOperands, Instr.operandBytes]⟩
theorem pop (a : Byte) : Statement (.pop a) := ⟨rfl, rfl, by simp [Instr.registerOperands, Instr.operandBytes]⟩
theorem prn (a : Byte) : Statement (.prn a) := ⟨rfl, rfl, by simp [Instr.registerOperands, Instr.operandBytes]⟩
theorem call (a : Byte) : Statement (.call a) := ⟨rfl, rfl, by simp [Instr.registerOperands, Instr.operandBytes]⟩
theorem jmp (a : Byte) : Statement (.jmp a) := ⟨rfl, rfl, by simp [Instr.registerOperands, Instr.operandBytes]⟩
theorem jeq (a : Byte) : Statement (.jeq a) := ⟨rfl, rfl, by simp [Instr.registerOperands, Instr.operandBytes]⟩
theorem jne (a : Byte) : Statement (.jne a) := ⟨rfl, rfl, by simp [Instr.registerOperands, Instr.operandBytes]⟩
theorem ldi (a imm : Byte) : Statement (.ldi a imm) :=
  ⟨rfl, rfl, by simp [Instr.registerOperands, Instr.operandBytes]⟩
theorem add (a b : Byte) : Statement (.add a b) := ⟨rfl, rfl, by simp [Instr.registerOperands, Instr.operandBytes]⟩
theorem mul (a b : Byte) : Statement (.mul a b) := ⟨rfl, rfl, by simp [Instr.registerOperands, Instr.operandBytes]⟩
theorem cmp (a b : Byte) : Statement (.cmp a b) := ⟨rfl, rfl, by simp [Instr.registerOperands, Instr.operandBytes]⟩

end Sys2Proof.Laws.Layout
end

