-- ==== Sys2Proof/Laws/Regs.lean ====
section
/-! SUPPORT. The laws of the register file: eight ordinary registers (rule R25). -/

namespace Sys2Proof.Machine

/-- A register written reads back, and the others are as before. -/
theorem RegFile.get_set (f : RegFile) (r q : Reg) (v : Byte) :
    (f.set r v).get q = if q = r then v else f.get q := by
  fin_cases r <;> fin_cases q <;> rfl

/-- Two register files that read the same are the same. -/
theorem RegFile.ext_get {f g : RegFile} (h : ∀ r, f.get r = g.get r) : f = g := by
  cases f
  cases g
  simp only [RegFile.mk.injEq]
  exact ⟨h 0, h 1, h 2, h 3, h 4, h 5, h 6, h 7⟩

/-- Reading a register after writing one. -/
theorem State.reg_writeReg (s : State) (r q : Reg) (v : Byte) :
    (s.writeReg r v).reg q = if q = r then v else s.reg q := RegFile.get_set s.regs r q v

end Sys2Proof.Machine
end

