-- ==== Sys2Proof/Laws/Step.lean ====
section
/-! SUPPORT. What one step does, said once, and that the host's fetch word is what the next step runs. -/

namespace Sys2Proof.Machine

theorem canStep_iff (s : State) : s.canStep = true ↔ s.run = true ∧ s.fault.kind = .none := by
  simp [State.canStep]

/-- The three ways a step goes: the core is terminal, the opcode is unknown, or a handler runs. -/
theorem step_cases (s : State) :
    (s.canStep = false ∧ step s = .next s) ∨
    (s.canStep = true ∧ s.fetch.latchedInstr = none ∧ step s = .next (s.fetch.raise .unknownInstruction 0)) ∨
    (s.canStep = true ∧ ∃ i, s.fetch.latchedInstr = some i ∧ step s = exec i s.fetch) := by
  unfold step
  cases hc : s.canStep with
  | false => exact .inl ⟨rfl, rfl⟩
  | true =>
    cases hi : s.fetch.latchedInstr with
    | none => exact .inr (.inl ⟨rfl, rfl, rfl⟩)
    | some i => exact .inr (.inr ⟨rfl, i, rfl, rfl⟩)

/-- The bytes that the next fetch latches after `withFetchWord`. -/
theorem fetchedBytes_withFetchWord {s : State} (hm : Memory.wf s.mem) (nbits w : Nat) :
    (s.withFetchWord nbits w).fetchedBytes = ⟨tableByte nbits w 0, tableByte nbits w 1, tableByte nbits w 2⟩ := by
  have h1 : s.pc ≠ s.pc + 1 := by bv_omega
  have h2 : s.pc ≠ s.pc + 2 := by bv_omega
  have h3 : s.pc + 1 ≠ s.pc + 2 := by bv_omega
  have hm1 := Memory.wf_write hm s.pc (tableByte nbits w 0)
  have hm2 := Memory.wf_write hm1 (s.pc + 1) (tableByte nbits w 1)
  simp only [State.fetchedBytes, Latch.mk.injEq]
  refine ⟨?_, ?_, ?_⟩
  · exact (Memory.read_write_other _ _ h2).trans ((Memory.read_write_other _ _ h1).trans
      (Memory.read_write_same hm _ _))
  · exact (Memory.read_write_other _ _ h3).trans (Memory.read_write_same hm1 _ _)
  · exact Memory.read_write_same hm2 _ _

/-- The step after `withFetchWord` runs the instruction that the decoder reads from the table word. -/
theorem step_withFetchWord {s : State} (hm : Memory.wf s.mem) {nbits w : Nat} {i : Instr}
    (hi : decodeTableWord nbits w = some i) :
    step (s.withFetchWord nbits w) = exec i (s.withFetchWord nbits w).fetch := by
  have hlatch : (s.withFetchWord nbits w).fetch.latchedInstr = some i := by
    rw [← hi]
    simp only [State.latchedInstr, State.fetch, fetchedBytes_withFetchWord hm, State.latch_ir, decodeTableWord]
  have hc : (s.withFetchWord nbits w).canStep = true := rfl
  simp only [step, hc, hlatch, if_true]

end Sys2Proof.Machine
end

