-- ==== Sys2Proof/Tests/Slice0.lean ====
section
/-! SUPPORT. The model's own tests. Expected results are from 95_test_vectors.md (its ids stand in the comments) or
written out from the rules; the witnesses at the end meet the hypotheses of the statements, clause by clause. -/

namespace Sys2Proof.Tests

open Sys2Proof.Machine

/-! ### Helpers -/

/-- Reset, with bytes placed at `pc` upward. -/
def code (pc : Byte) (bytes : List Byte) : State := { storeBytes pc bytes State.reset with pc := pc }

/-- The same with R0 and R1 given. -/
def code01 (pc : Byte) (bytes : List Byte) (x0 x1 : Byte) : State :=
  ((code pc bytes).writeReg 0 x0).writeReg 1 x1

/-- FL holding E, G or L alone. -/
def flE : Flags := { e := true, g := false, l := false }
def flG : Flags := { e := false, g := true, l := false }
def flL : Flags := { e := false, g := false, l := true }

/-- One step answers a next state of which `p` is true. -/
def steps (s : State) (p : State → Bool) : Bool :=
  match step s with
  | .next t => p t
  | .fault _ => false
  | .refused _ => false

/-- One handler answers a next state of which `p` is true. -/
def runs (i : Instr) (s : State) (p : State → Bool) : Bool :=
  match exec i s with
  | .next t => p t
  | .fault _ => false
  | .refused _ => false

/-! ### WellFormed: a register operand of 8 or more is refused in every position -/

theorem test_wf_refuses_each_bad_register : [Instr.push 8, .pop 8, .prn 8, .call 8, .jmp 8, .jeq 8, .jne 8, .ldi 8 0,
    .add 8 0, .add 0 8, .mul 8 0, .mul 0 8, .cmp 8 0, .cmp 0 255].all (fun i => !i.wf) = true := by decide
theorem test_wf_accepts_last_register : [Instr.hlt, .ret, .push 7, .pop 7, .prn 7, .call 7, .jmp 7, .jeq 7, .jne 7,
    .ldi 7 255, .add 7 7, .mul 7 7, .cmp 7 7].all Instr.wf = true := by decide

/-! ### Decode: each word is written out from rule R72 -/

theorem test_decode_hlt : decodeBytes 0b00000001 0xAA 0xBB = some .hlt := by decide
theorem test_decode_ret : decodeBytes 0b00010001 0xAA 0xBB = some .ret := by decide
theorem test_decode_push : decodeBytes 0b01000101 0b00000010 0xBB = some (.push 2) := by decide
theorem test_decode_pop : decodeBytes 0b01000110 0b00000111 0xBB = some (.pop 7) := by decide
theorem test_decode_prn : decodeBytes 0b01000111 0b00001010 0xBB = some (.prn 10) := by decide
theorem test_decode_call : decodeBytes 0b01010000 0b00000001 0xBB = some (.call 1) := by decide
theorem test_decode_jmp : decodeBytes 0b01010100 0b00000011 0xBB = some (.jmp 3) := by decide
theorem test_decode_jeq : decodeBytes 0b01010101 0b00001001 0xBB = some (.jeq 9) := by decide
theorem test_decode_jne : decodeBytes 0b01010110 0b10000000 0xBB = some (.jne 128) := by decide
theorem test_decode_ldi : decodeBytes 0b10000010 0b00000101 0b11111111 = some (.ldi 5 255) := by decide
theorem test_decode_add : decodeBytes 0b10100000 0b00000111 0b00000001 = some (.add 7 1) := by decide
theorem test_decode_mul : decodeBytes 0b10100010 0b00000010 0b00000011 = some (.mul 2 3) := by decide
theorem test_decode_cmp : decodeBytes 0b10100111 0b00000000 0b00000010 = some (.cmp 0 2) := by decide

/-- F3 to F6: bytes that are not in the table. -/
theorem test_decode_rejects_by_name : decode [0xA1, 0, 1] = .unknownOpcode 0xA1 ∧ decode [0xA3, 0, 1] = .unknownOpcode 0xA3 ∧
    decode [0x00] = .unknownOpcode 0 ∧ decode [0xFF] = .unknownOpcode 0xFF ∧ decode [] = .noBytes ∧
    decode [0x82, 0] = .truncated .ldi ∧ decode [0x45] = .truncated .push := by decide
theorem test_decode_table_word : decodeTableWord 24 0x010682 = some (.ldi 6 1) ∧ decodeTableWord 8 0xFF01 = some .hlt ∧
    decodeTableWord 16 0x0347 = some (.prn 3) ∧ decodeTableWord 8 0x00 = none := by decide
/-- Rule R79: bits 7:6 are the length less 1, bit 5 marks an alu instruction, bit 4 one that sets pc. -/
theorem test_opcode_layout : Op.all.all (fun o => o.code.toNat / 64 == o.length - 1 &&
    (o.code.getLsbD 5 == [Op.add, .mul, .cmp].contains o) &&
    (o.code.getLsbD 4 == [Op.call, .ret, .jmp, .jeq, .jne].contains o)) = true := by decide
theorem test_asm : Instr.toAsm (.ldi 0 8) = "LDI R0,8" ∧ Instr.toAsm (.add 0 1) = "ADD R0,R1" ∧
    Instr.toAsm .hlt = "HLT" := by decide

/-! ### Instructions: one step each -/

/-- A1, A3 -/
theorem test_add : steps (code01 0 [0xA0, 0, 1] 5 6) (fun t => t.reg 0 = 11 && t.reg 1 = 6 && t.pc = 3) = true := by
  decide
theorem test_add_wraps_keeps_flags : steps { code01 0 [0xA0, 0, 1] 200 100 with fl := flL }
    (fun t => t.reg 0 = 44 && t.fl = flL) = true := by decide
/-- A12, A14 -/
theorem test_mul_low_byte : steps (code01 0 [0xA2, 0, 1] 255 255) (fun t => t.reg 0 = 1 && t.reg 1 = 255) = true := by
  decide
theorem test_mul_same_register : steps (code01 0 [0xA2, 0, 0] 15 9) (fun t => t.reg 0 = 225 && t.pc = 3) = true := by
  decide
/-- A20, A22 -/
theorem test_cmp_unsigned : steps (code01 0 [0xA7, 0, 1] 0 255) (fun t => t.fl.toByte = 4 && t.reg 0 = 0) = true := by
  decide
theorem test_cmp_clears_old_flag : steps { code01 0 [0xA7, 0, 1] 5 3 with fl := flE } (fun t => t.fl.toByte = 2) = true := by
  decide
/-- M5, M4 -/
theorem test_ldi_wraps_pc : steps (code 253 [0x82, 1, 0x2A]) (fun t => t.reg 1 = 42 && t.pc = 0) = true := by decide
theorem test_ldi_bad_register : steps (code 0 [0x82, 8, 1]) (fun t => t.fault = ⟨.registerIndexFault, 0, 0x82, 8, 1, 8⟩ &&
    t.pc = 0 && t.run) = true := by decide
/-- M7, M9 -/
theorem test_prn_sp : steps (code 0 [0x47, 7]) (fun t => t.out = [244] && t.pc = 2) = true := by decide
theorem test_prn_appends : steps { code01 0 [0x47, 0] 3 0 with out := [9] } (fun t => t.out = [9, 3]) = true := by decide
/-- S2, S3 -/
theorem test_push_wraps_sp : steps ((code01 0 [0x45, 0] 0x99 0).writeSp 0)
    (fun t => t.sp = 0xFF && t.byteAt 0xFF = 0x99) = true := by decide
theorem test_push_sp_stores_new_sp : steps (code 0 [0x45, 7]) (fun t => t.sp = 0xF3 && t.byteAt 0xF3 = 0xF3 && t.pc = 2) =
    true := by decide
/-- S6, S7 -/
theorem test_pop_wraps_sp : steps (((code 0 [0x46, 0]).writeSp 0xFF).writeByte 0xFF 0x77)
    (fun t => t.reg 0 = 0x77 && t.sp = 0 && t.byteAt 0xFF = 0x77) = true := by decide
theorem test_pop_sp_is_byte_plus_one : steps (((code 0 [0x46, 7]).writeSp 0xF3).writeByte 0xF3 0x20)
    (fun t => t.sp = 0x21) = true := by decide
/-- F2, C2 -/
theorem test_call_at_254 : steps (code01 254 [0x50, 1] 0 0x40)
    (fun t => t.sp = 0xF3 && t.byteAt 0xF3 = 0 && t.pc = 0x40) = true := by decide
theorem test_call_sp_jumps_to_new_sp : steps (code 0 [0x50, 7]) (fun t => t.byteAt 0xF3 = 2 && t.pc = 0xF3) = true := by
  decide
/-- C5, C6 -/
theorem test_ret : steps (((code 0 [0x11]).writeSp 0xF3).writeByte 0xF3 8) (fun t => t.pc = 8 && t.sp = 0xF4) = true := by
  decide
theorem test_ret_wraps_sp : steps (((code 0 [0x11]).writeSp 0xFF).writeByte 0xFF 0x10)
    (fun t => t.pc = 0x10 && t.sp = 0) = true := by decide
/-- C8, C9 -/
theorem test_jmp : steps ((code 0 [0x54, 3]).writeReg 3 0x20) (fun t => t.pc = 0x20) = true := by decide
theorem test_jmp_bad_register : steps (code 0 [0x54, 9]) (fun t => t.fault.detail = 9 && t.pc = 0) = true := by decide
/-- C10, C14 -/
theorem test_jeq_taken : steps { (code 10 [0x55, 2]).writeReg 2 40 with fl := flE } (fun t => t.pc = 40) = true := by decide
theorem test_jeq_not_taken_unchecked : steps (code 0 [0x55, 9]) (fun t => t.pc = 2 && t.fault.kind = .none) = true := by
  decide
/-- C18, C21 -/
theorem test_jne_taken_after_reset : steps ((code 0 [0x56, 3]).writeReg 3 12) (fun t => t.pc = 12) = true := by decide
theorem test_jne_not_taken_unchecked : steps { code 0 [0x56, 9] with fl := flE }
    (fun t => t.pc = 2 && t.fault.kind = .none) = true := by decide
/-- H1, H2 -/
theorem test_hlt : steps (code 5 [0x01]) (fun t => !t.run && t.pc = 6 && t.out = []) = true := by decide
theorem test_hlt_at_255 : steps (code 255 [0x01]) (fun t => !t.run && t.pc = 0) = true := by decide

/-! ### The step, the alu and the host's view -/

/-- F1: the operand bytes come from wrapped addresses. -/
theorem test_fetch_wraps : steps (code01 255 [0x47, 0] 5 0) (fun t => t.out = [5] && t.pc = 1) = true := by decide
/-- W8, its faulting step. -/
theorem test_unknown_opcode : steps (code 3 [0xFF, 7, 9])
    (fun t => t.fault = ⟨.unknownInstruction, 3, 0xFF, 7, 9, 0⟩ && t.run && t.pc = 3) = true := by decide
/-- A9: operand_a is checked first. -/
theorem test_first_bad_operand : steps (code 0 [0xA0, 8, 9]) (fun t => t.fault.detail = 8) = true := by decide
/-- F8, F9 -/
theorem test_terminal_takes_no_step :
    steps { code 0 [0x82, 0, 8] with run := false } (fun t => t.reg 0 = 0 && t.pc = 0) = true ∧
    steps ((code 0 [0x82, 0, 8]).raise .unknownInstruction 0) (fun t => t.reg 0 = 0 && t.pc = 0) = true := by decide
/-- A25 to A31 -/
theorem test_alu_block : alu 1 5 6 = .result 255 ∧ alu 1 6 5 = .result 1 ∧ alu 3 7 2 = .result 3 ∧
    alu 3 255 255 = .result 1 ∧ alu 3 0 9 = .result 0 ∧ alu 3 7 0 = .fault .divideByZero ∧
    alu 5 1 1 = .fault .unsupportedOperation ∧ alu 7 1 1 = .fault .unsupportedOperation := by decide
theorem test_flag_bits : flE.toByte = 0x01 ∧ flG.toByte = 0x02 ∧ flL.toByte = 0x04 := by decide
/-- The next step after reset runs the placed instruction. -/
theorem test_fetch_word : steps (State.reset.withFetchWord 24 0x080082) (fun t => t.reg 0 = 8 && t.pc = 3) = true := by
  decide
/-- Reset with `INIT_MEMORY` zero everywhere is `State.reset`. -/
theorem test_reset_with_unlisted : State.resetWith (fun _ => Config.unlistedByte) = State.reset := by decide
/-- W5, as a session: load, run, and what the host reads. -/
theorem test_session : (match Session.load [0x82, 0, 8, 0x47, 0, 0x01] (Session.construct fun _ => 0) with
    | .refused _ _ => false
    | .accepted u => match Session.run 3 u with
      | .returned v => v.core.out = [8] && v.core.reg 0 = 8 && !v.core.run && v.core.pc = 6
      | .stillRunning => false
      | .notAllowed => false) = true := by decide

/-! ### Witnesses: states and operands that meet the hypotheses of the statements -/

theorem witness_DecodeInvertsEncode : encode (.push 2) ++ [7, 9] = 0x45 :: 2 :: 7 :: [9] := by decide
theorem witness_EncodeInvertsDecode : decode [0x82, 0, 8, 0x01] = .instr (.ldi 0 8) [0x01] := by decide
theorem witness_OtherOpcodesAreUnknown : State.reset.run = true ∧ State.reset.fault.kind = .none ∧
    Op.all.all (fun o => o.code ≠ State.reset.byteAt State.reset.pc) = true := by decide
theorem witness_StepRunsDecodedInstruction : (code 254 [0xA0, 0, 1]).run = true ∧ (code 254 [0xA0, 0, 1]).fault.kind = .none ∧
    decodeBytes ((code 254 [0xA0, 0, 1]).byteAt 254) ((code 254 [0xA0, 0, 1]).byteAt 255)
      ((code 254 [0xA0, 0, 1]).byteAt 0) = some (.add 0 1) := by decide
theorem witness_UnknownOpcodeIsRecorded : (code 3 [0xFF]).run = true ∧ (code 3 [0xFF]).fault.kind = .none ∧
    Op.ofByte ((code 3 [0xFF]).byteAt 3) = none := by decide
theorem witness_TerminalCoreKeepsItsState_halted : State.reset.halt.run = false := by decide
theorem witness_TerminalCoreKeepsItsState_faulted :
    (State.reset.raise .divideByZero 0).fault.kind ≠ .none := by decide
/-- A state with a flag set and a byte stored, one step before its CMP clears that flag. -/
theorem witness_StepKeepsInvariant : State.Inv { code 0 [0xA7, 0, 1] with fl := flL } ∧
    steps { code 0 [0xA7, 0, 1] with fl := flL } (fun t => t.fl = flE) = true :=
  ⟨⟨by decide, by decide, by decide, by decide, by decide, by decide, by decide⟩, by decide⟩
theorem witness_LoadedCoreMeetsInvariant : (match Session.load [255, 0] (Session.construct fun _ => 0) with
    | .accepted u => u.core.byteAt 0 = 255 && u.core.byteAt 1 = 0
    | .refused _ _ => false) = true := by decide
/-- The boundary operands of ADD, MUL and CMP: 7 and 7, 8, and 7 with 8. -/
theorem witness_AddWritesWrappedSum : (7 : Byte).toNat < 8 ∧ 8 ≤ (8 : Byte).toNat ∧
    runs (.add 7 7) State.reset (fun t => t.sp = 0xE8) = true ∧
    runs (.add 8 7) State.reset (fun t => t.fault.detail = 8) = true ∧
    runs (.add 7 8) State.reset (fun t => t.fault.detail = 8) = true := by decide
theorem witness_MulWritesLowProduct : runs (.mul 7 7) State.reset (fun t => t.sp = 0x90) = true ∧
    runs (.mul 8 7) State.reset (fun t => t.fault.detail = 8) = true ∧
    runs (.mul 7 8) State.reset (fun t => t.fault.detail = 8) = true := by decide
theorem witness_CmpSetsExactlyOneFlag : runs (.cmp 7 0) State.reset (fun t => t.fl = flG) = true ∧
    runs (.cmp 8 7) State.reset (fun t => t.fault.detail = 8) = true ∧
    runs (.cmp 7 8) State.reset (fun t => t.fault.detail = 8) = true := by decide
theorem witness_AluBlockComputes : (1 : Byte) ≠ 0 ∧ 5 ≤ (5 : BitVec 3).toNat ∧ 5 ≤ (7 : BitVec 3).toNat := by decide
theorem witness_AluFaultsAreRaisedBeforeAnyWrite : (7 : Byte).toNat < 8 ∧ 5 ≤ (5 : BitVec 3).toNat ∧
    State.reset.reg ⟨(1 : Byte).toNat, by decide⟩ = 0 := by decide
theorem witness_LdiLoadsImmediate : runs (.ldi 7 16) State.reset (fun t => t.sp = 16) = true ∧
    runs (.ldi 8 16) State.reset (fun t => t.fault.detail = 8) = true := by decide
theorem witness_PrnEmitsRegister : runs (.prn 7) State.reset (fun t => t.out = [244]) = true ∧
    runs (.prn 8) State.reset (fun t => t.out = [] && t.fault.detail = 8) = true := by decide
theorem witness_PushStoresBelowStackTop : Memory.wf (code 0 [1, 2]).mem ∧
    runs (.push 7) (code 0 [1, 2]) (fun t => t.byteAt 0xF3 = 0xF3) = true ∧
    runs (.push 6) (code 0 [1, 2]) (fun t => t.byteAt 0xF3 = 0 && t.sp = 0xF3) = true ∧
    runs (.push 8) (code 0 [1, 2]) (fun t => t.sp = 0xF4) = true := by decide
theorem witness_PopLoadsStackTop : runs (.pop 7) (code 0xF4 [5]) (fun t => t.sp = 6) = true ∧
    runs (.pop 6) (code 0xF4 [5]) (fun t => t.reg 6 = 5 && t.sp = 0xF5) = true ∧
    runs (.pop 8) (code 0xF4 [5]) (fun t => t.sp = 0xF4) = true := by decide
theorem witness_PushThenPopRestoresRegisters : (7 : Byte).toNat < 8 ∧ Memory.wf (code 0 [1, 2]).mem := by decide
theorem witness_CallPushesReturnAddress : Memory.wf (code 6 [0x50, 7]).mem ∧
    runs (.call 7) (code 6 [0x50, 7]) (fun t => t.pc = 0xF3 && t.byteAt 0xF3 = 8) = true ∧
    runs (.call 6) (code 6 [0x50, 6]) (fun t => t.pc = 0) = true ∧
    runs (.call 8) (code 6 [0x50, 8]) (fun t => t.sp = 0xF4 && t.pc = 6) = true := by decide
/-- The later state is the CALL's own next state. -/
theorem witness_RetReturnsPastCall : runs (.call 1) (code01 6 [0x50, 1] 0 11)
    (fun u => runs (.call 1) (code01 6 [0x50, 1] 0 11)
      (fun t => decide (u.sp = t.sp) && decide (u.byteAt t.sp = t.byteAt t.sp))) = true := by decide
theorem witness_JmpAlwaysJumps : runs (.jmp 7) State.reset (fun t => t.pc = 0xF4) = true ∧
    runs (.jmp 8) State.reset (fun t => t.pc = 0) = true := by decide
theorem witness_JeqJumpsIfEqual : runs (.jeq 7) { State.reset with fl := flE } (fun t => t.pc = 0xF4) = true ∧
    runs (.jeq 8) State.reset (fun t => t.pc = 2) = true ∧
    runs (.jeq 8) { State.reset with fl := flE } (fun t => t.fault.detail = 8) = true := by decide
theorem witness_JneJumpsIfNotEqual : runs (.jne 7) State.reset (fun t => t.pc = 0xF4) = true ∧
    runs (.jne 8) { State.reset with fl := flE } (fun t => t.pc = 2) = true ∧
    runs (.jne 8) State.reset (fun t => t.fault.detail = 8) = true := by decide
theorem witness_WellFormedInstructionNeverFaults : Instr.wf (.add 7 7) = true := by decide
/-- A JMP that keeps FL, a faulting CMP that keeps it, and a CMP step that changes it. -/
theorem witness_OnlyCompareWritesFlags :
    runs (.jmp 0) { State.reset with fl := flG } (fun t => t.fl = flG) = true ∧
    runs (.cmp 0 8) { State.reset with fl := flG } (fun t => t.fl = flG && decide (t.fault.kind ≠ .none)) = true ∧
    steps (code 0 [0xA7, 0, 0]) (fun t => decide (t.fl ≠ State.reset.fl)) = true := by decide
/-- Flags that agree on E, an instruction that is no branch, and a register that is not pc +8 2. -/
theorem witness_OnlyBranchesReadEqual : flL.e = State.reset.fl.e ∧
    runs (.jeq 0) { State.reset with fl := flL } (fun t => t.pc = 2) = true ∧
    runs (.add 0 1) { State.reset with fl := flE } (fun t => t.pc = 3) = true ∧
    State.reset.reg 7 ≠ State.reset.pc + 2 := by decide
theorem witness_OnlyHaltWritesRun : steps (code 0 [0x01]) (fun t => decide (t.run ≠ State.reset.run)) = true ∧
    steps State.reset (fun t => decide (t.fault.kind ≠ .none)) = true ∧
    steps State.reset (fun t => decide (t ≠ State.reset)) = true := by decide
theorem witness_OnlyPushAndCallWriteMemory :
    runs (.push 7) State.reset (fun t => decide (t.byteAt 0xF3 ≠ State.reset.byteAt 0xF3)) = true ∧
    steps (code 0 [0x50, 7]) (fun t => decide (t.byteAt 0xF3 ≠ (code 0 [0x50, 7]).byteAt 0xF3)) = true := by decide
theorem witness_OnlyPrnAppendsOutput : runs (.prn 7) State.reset (fun t => t.out = [244]) = true ∧
    steps (code 0 [0x47, 7]) (fun t => decide (t.out ≠ [])) = true := by decide
/-- A register written as an operand, and SP written by the stack. -/
theorem witness_RegistersWrittenByEachInstruction : runs (.ldi 6 1) State.reset (fun t => decide (t.reg 6 ≠ 0)) = true ∧
    runs .ret State.reset (fun t => decide (t.reg 7 ≠ 0xF4)) = true := by decide
theorem witness_FaultingStepChangesOnlyFault : State.reset.fault.kind = .none ∧
    steps (code 0 [0x45, 8]) (fun t => decide (t.fault.kind ≠ .none)) = true := by decide
/-- No run reaches it: a state whose record already holds UnsupportedOperation. -/
theorem witness_NoHandlerReachesUnsupportedOperation :
    runs .hlt (State.reset.raise .unsupportedOperation 0) (fun t => t.fault.kind = .unsupportedOperation) = true ∧
    steps (State.reset.raise .unsupportedOperation 0) (fun t => t.fault.kind = .unsupportedOperation) = true := by decide
/-- The three reports, at the boundary index 8. -/
theorem witness_FirstFailingCheckIsReported :
    steps (code 0 [0xA1, 8, 8]) (fun t => t.fault.kind = .unknownInstruction) = true ∧
    steps (code 0 [0xA7, 8, 9]) (fun t => t.fault.kind = .registerIndexFault && t.fault.detail = 8) = true ∧
    steps (code 0 [0xA7, 7, 8]) (fun t => t.fault.kind = .registerIndexFault && t.fault.detail = 8) = true := by decide
theorem witness_LatchIsReadOnlyByFaultEntry : Op.length .ret = 1 ∧ Op.length .jmp = 2 ∧
    runs (.push 8) State.reset (fun t => t.fault.kind = .registerIndexFault) = true ∧
    runs (.push 7) State.reset (fun t => t.fault.kind = .none) = true := by decide
theorem witness_ControlWordDatapathEqualsHandlers :
    decoderOutput (State.reset.latch ⟨0x50, 7, 0⟩).ir.op = some (.call, controlWordOf .call) := by decide
theorem witness_WriteChangesExactlyOneByte : Memory.wf (code 0 [1, 2, 3]).mem ∧ (255 : Byte) ≠ 0 := by decide
theorem witness_SecondWriteReplacesFirst : Memory.wf (code 0 [1, 2, 3]).mem ∧ (code 0 [1, 2, 3]).byteAt 1 ≠ 0 := by decide
theorem witness_CanonicalMemoryIsUnique : Memory.wf (Memory.write [] 5 9) ∧ Memory.wf [(5, 9)] := by decide
theorem witness_EveryRegisterIsOrdinary : (7 : Reg) ≠ 0 := by decide
/-- A CALL R1 at 0x10 with SP at 0x12: its push writes its own operand byte. -/
theorem witness_CallUsesTheFetchedOperand : let s := (code01 0x10 [0x50, 1] 0 0x40).writeSp 0x12
    Memory.wf s.mem ∧ s.run = true ∧ s.fault.kind = .none ∧ Op.ofByte (s.byteAt s.pc) = some .call ∧
    s.byteAt (s.pc + 1) = 1 ∧ (1 : Byte) ≠ 7 ∧ s.sp = s.pc + 2 := by decide
/-- The longest program, with the largest value. -/
theorem witness_LoadPlacesProgramAtZero : (List.replicate 256 (255 : Int)).length ≤ 256 ∧
    ∀ v ∈ List.replicate 256 (255 : Int), 0 ≤ v ∧ v ≤ 255 :=
  ⟨List.length_replicate.le, fun v hv => by rw [List.eq_of_mem_replicate hv]; decide⟩
/-- The four refused loads at their boundaries. -/
theorem witness_BadLoadIsRefused : 256 < (List.replicate 257 (0 : Int)).length ∧ (-1 : Int) < 0 ∧ (255 : Int) < 256 ∧
    (Session.mk .loaded State.reset).phase ≠ .fresh :=
  ⟨by rw [List.length_replicate]; decide, by decide, by decide, by decide⟩
/-- One step to the end, where a bound of 1 is just enough and 0 is not. -/
theorem witness_RunOutcomeIsUnique : runFor 1 (code 0 [0x01]) = some ((code 0 [0x01]).fetch.halt.advance 1) ∧
    runFor 0 (code 0 [0x01]) = none ∧ (code 0 [0x01]).canStep = true := by decide

end Sys2Proof.Tests
end

/-! ## The state's registers, FL and RUN (10_state.md) -/

section
/-! What each instruction, each step and a load can do to the state, said once. -/

namespace Sys2Proof.Machine

/-- ADD with both operands in range writes the wrapped sum to Ra. -/
theorem exec_add_of_lt {a b : Byte} (ha : a.toNat < 8) (hb : b.toNat < 8) (s : State) : exec (.add a b) s =
    .next ((s.writeReg ⟨a.toNat, ha⟩ (s.reg ⟨a.toNat, ha⟩ + s.reg ⟨b.toNat, hb⟩)).advance 3) := by
  rw [exec_add, aluHandler_of_lt _ ha hb, alu_code]

/-- MUL with both operands in range writes the low byte of the product to Ra. -/
theorem exec_mul_of_lt {a b : Byte} (ha : a.toNat < 8) (hb : b.toNat < 8) (s : State) : exec (.mul a b) s =
    .next ((s.writeReg ⟨a.toNat, ha⟩ (s.reg ⟨a.toNat, ha⟩ * s.reg ⟨b.toNat, hb⟩)).advance 3) := by
  rw [exec_mul, aluHandler_of_lt _ ha hb, alu_code]

/-- CMP with both operands in range writes the comparison to FL. -/
theorem exec_cmp_of_lt {a b : Byte} (ha : a.toNat < 8) (hb : b.toNat < 8) (s : State) : exec (.cmp a b) s =
    .next ((s.setFlags (Flags.compare (s.reg ⟨a.toNat, ha⟩) (s.reg ⟨b.toNat, hb⟩))).advance 3) := by
  rw [exec_cmp, aluHandler_of_lt _ ha hb, alu_code]

/-- `Effect s i t`: instruction `i` run in `s` can answer `t`. One constructor per way a handler completes, and one
for the register fault that any instruction with a register operand may raise (rule R212). -/
inductive Effect (s : State) : Instr → State → Prop where
  | hlt : Effect s .hlt (s.halt.advance 1)
  | ret : Effect s .ret (s.setPc s.loadTop).incSp
  | push {a : Byte} (ha : a.toNat < 8) :
      Effect s (.push a) ((s.decSp.storeTop (s.decSp.reg ⟨a.toNat, ha⟩)).advance 2)
  | pop {a : Byte} (ha : a.toNat < 8) :
      Effect s (.pop a) ((s.writeReg ⟨a.toNat, ha⟩ s.loadTop).incSp.advance 2)
  | prn {a : Byte} (ha : a.toNat < 8) : Effect s (.prn a) ((s.emit (s.reg ⟨a.toNat, ha⟩)).advance 2)
  | call {a : Byte} (ha : a.toNat < 8) :
      Effect s (.call a) ((s.decSp.storeTop (s.pc + 2)).setPc (s.decSp.reg ⟨a.toNat, ha⟩))
  | jmp {a : Byte} (ha : a.toNat < 8) : Effect s (.jmp a) (s.setPc (s.reg ⟨a.toNat, ha⟩))
  | jeqTaken {a : Byte} (he : s.fl.e = true) (ha : a.toNat < 8) :
      Effect s (.jeq a) (s.setPc (s.reg ⟨a.toNat, ha⟩))
  | jeqNotTaken {a : Byte} (he : s.fl.e = false) : Effect s (.jeq a) (s.advance 2)
  | jneTaken {a : Byte} (he : s.fl.e = false) (ha : a.toNat < 8) :
      Effect s (.jne a) (s.setPc (s.reg ⟨a.toNat, ha⟩))
  | jneNotTaken {a : Byte} (he : s.fl.e = true) : Effect s (.jne a) (s.advance 2)
  | ldi {a imm : Byte} (ha : a.toNat < 8) : Effect s (.ldi a imm) ((s.writeReg ⟨a.toNat, ha⟩ imm).advance 3)
  | add {a b : Byte} (ha : a.toNat < 8) (hb : b.toNat < 8) : Effect s (.add a b)
      ((s.writeReg ⟨a.toNat, ha⟩ (s.reg ⟨a.toNat, ha⟩ + s.reg ⟨b.toNat, hb⟩)).advance 3)
  | mul {a b : Byte} (ha : a.toNat < 8) (hb : b.toNat < 8) : Effect s (.mul a b)
      ((s.writeReg ⟨a.toNat, ha⟩ (s.reg ⟨a.toNat, ha⟩ * s.reg ⟨b.toNat, hb⟩)).advance 3)
  | cmp {a b : Byte} (ha : a.toNat < 8) (hb : b.toNat < 8) : Effect s (.cmp a b)
      ((s.setFlags (Flags.compare (s.reg ⟨a.toNat, ha⟩) (s.reg ⟨b.toNat, hb⟩))).advance 3)
  | registerFault {i : Instr} {a : Byte} (hmem : a ∈ i.registerOperands) (ha : 8 ≤ a.toNat) :
      Effect s i (s.raise .registerIndexFault a)

section
variable {i : Instr} {s t : State} {a b : Byte}

/-- A handler that starts with an operand check has an effect if what follows the check has one. -/
theorem effect_of_checkReg {k : Reg → Result} (hmem : a ∈ i.registerOperands)
    (hk : ∀ ha : a.toNat < 8, k ⟨a.toNat, ha⟩ = .next t → Effect s i t) (h : checkReg a s k = .next t) :
    Effect s i t := by
  obtain ⟨ha, h⟩ | ⟨ha, rfl⟩ := checkReg_next h
  · exact hk ha h
  · exact .registerFault hmem ha

/-- The same when what follows the check always answers a next state. -/
theorem effect_of_checkReg_next {g : Reg → State} (hmem : a ∈ i.registerOperands)
    (hg : ∀ ha : a.toNat < 8, Effect s i (g ⟨a.toNat, ha⟩)) (h : checkReg a s (fun ra => .next (g ra)) = .next t) :
    Effect s i t :=
  effect_of_checkReg hmem (fun ha h => by cases h; exact hg ha) h

/-- The same for the alu handler, whose two operands are both checked. -/
theorem effect_of_aluHandler (op : BitVec 3) (hmem : i.registerOperands = [a, b])
    (hk : a.toNat < 8 → b.toNat < 8 → Effect s i t) (h : aluHandler op a b s = .next t) : Effect s i t :=
  effect_of_checkReg (by simp [hmem]) (fun ha => effect_of_checkReg (by simp [hmem]) fun hb _ => hk ha hb) h

/-- What an instruction can do when it answers a next state. -/
theorem exec_effect (h : exec i s = .next t) : Effect s i t := by
  cases i with
  | hlt => cases h; exact .hlt
  | ret => cases h; exact .ret
  | push a =>
    rw [exec_push] at h
    exact effect_of_checkReg_next (.head _) .push h
  | pop a =>
    rw [exec_pop] at h
    exact effect_of_checkReg_next (.head _) .pop h
  | prn a =>
    rw [exec_prn] at h
    exact effect_of_checkReg_next (.head _) .prn h
  | call a =>
    rw [exec_call] at h
    exact effect_of_checkReg_next (.head _) .call h
  | jmp a =>
    rw [exec_jmp, jumpToReg] at h
    exact effect_of_checkReg_next (.head _) .jmp h
  | jeq a =>
    cases he : s.fl.e with
    | true =>
      rw [exec_jeq, if_pos he, jumpToReg] at h
      exact effect_of_checkReg_next (.head _) (.jeqTaken he) h
    | false =>
      rw [exec_jeq, if_neg (by simp [he])] at h
      cases h; exact .jeqNotTaken he
  | jne a =>
    cases he : s.fl.e with
    | true =>
      rw [exec_jne, if_pos he] at h
      cases h; exact .jneNotTaken he
    | false =>
      rw [exec_jne, if_neg (by simp [he]), jumpToReg] at h
      exact effect_of_checkReg_next (.head _) (.jneTaken he) h
  | ldi a imm =>
    rw [exec_ldi] at h
    exact effect_of_checkReg_next (.head _) .ldi h
  | add a b =>
    refine effect_of_aluHandler AluKind.add.code rfl (fun ha hb => ?_) h
    cases (exec_add_of_lt ha hb s).symm.trans h
    exact .add ha hb
  | mul a b =>
    refine effect_of_aluHandler AluKind.mul.code rfl (fun ha hb => ?_) h
    cases (exec_mul_of_lt ha hb s).symm.trans h
    exact .mul ha hb
  | cmp a b =>
    refine effect_of_aluHandler AluKind.cmp.code rfl (fun ha hb => ?_) h
    cases (exec_cmp_of_lt ha hb s).symm.trans h
    exact .cmp ha hb

/-- What a step can do when it answers a next state: nothing, since the core is terminal; raise UnknownInstruction;
or what the latched instruction can do on the fetched state (rule R100). -/
theorem step_next (h : step s = .next t) :
    (s.canStep = false ∧ t = s) ∨
    (s.canStep = true ∧ s.fetch.latchedInstr = none ∧ t = s.fetch.raise .unknownInstruction 0) ∨
    (s.canStep = true ∧ ∃ i, s.fetch.latchedInstr = some i ∧ exec i s.fetch = .next t) := by
  obtain ⟨hc, hs⟩ | ⟨hc, hi, hs⟩ | ⟨hc, i, hi, hs⟩ := step_cases s
  · exact .inl ⟨hc, by cases hs.symm.trans h; rfl⟩
  · exact .inr (.inl ⟨hc, hi, by cases hs.symm.trans h; rfl⟩)
  · exact .inr (.inr ⟨hc, i, hi, hs ▸ h⟩)

end

/-! ### Only memory is written by a load (rule R242) -/

theorem storeBytes_writes_only_mem (addr : Byte) (bytes : List Byte) (s : State) :
    ∃ m, storeBytes addr bytes s = { s with mem := m } := by
  induction bytes generalizing addr s with
  | nil => exact ⟨s.mem, rfl⟩
  | cons v vs ih =>
    obtain ⟨m, hm⟩ := ih (addr + 1) (s.writeByte addr v)
    exact ⟨m, hm⟩

@[simp] theorem State.load_fl (program : List Byte) (s : State) : (s.load program).fl = s.fl := by
  obtain ⟨m, hm⟩ := storeBytes_writes_only_mem Config.loadBase program s
  rw [State.load, hm]

@[simp] theorem State.load_run (program : List Byte) (s : State) : (s.load program).run = s.run := by
  obtain ⟨m, hm⟩ := storeBytes_writes_only_mem Config.loadBase program s
  rw [State.load, hm]

end Sys2Proof.Machine
end

section
/-! Rules R22, R25 and R33: the registers, and the reset values of the registers and FL. -/

namespace Sys2Proof.Machine

/-- Settles O43: a read after a write of the register file, for the same and for another register. -/
theorem everyRegisterIsOrdinary : Obligations.EveryRegisterIsOrdinary := by
  intro s r q v
  refine ⟨?_, fun hq => ?_, rfl⟩
  · rw [State.reg_writeReg, if_pos rfl]
  · rw [State.reg_writeReg, if_neg hq]

@[simp] theorem resetWith_fl (initMemory : Byte → Byte) :
    (State.resetWith initMemory).fl = { e := false, g := false, l := false } := rfl

/-- Every register but SP is 0 after reset (rule R22). -/
theorem resetWith_reg_of_ne_sp (initMemory : Byte → Byte) {r : Reg} (h : r ≠ spReg) :
    (State.resetWith initMemory).reg r = 0 := by
  have hreset : ∀ r : Reg, r ≠ spReg → State.reset.reg r = 0 := by decide
  exact hreset r h

/-- Settles O46: no reset value depends on `INIT_MEMORY`. -/
theorem resetRegistersAndFlags : Obligations.ResetRegistersAndFlags := fun initMemory =>
  ⟨fun _ h => resetWith_reg_of_ne_sp initMemory h, rfl, resetWith_fl initMemory, by rw [resetWith_fl]; rfl⟩

end Sys2Proof.Machine
end

section
/-! Rule R31: who writes FL. -/

namespace Sys2Proof.Machine

variable {i : Instr} {s t : State}

/-- A comparison sets exactly one of E, L and G. -/
theorem Flags.compare_exactly_one (x y : Byte) :
    Flags.compare x y = { e := true, l := false, g := false } ∨
    Flags.compare x y = { e := false, l := true, g := false } ∨
    Flags.compare x y = { e := false, l := false, g := true } := by
  unfold Flags.compare
  split
  · exact .inl rfl
  · split
    · exact .inr (.inl rfl)
    · exact .inr (.inr rfl)

/-- FL is kept, or the instruction is a CMP that raised no fault. -/
theorem Effect.fl_eq_or_cmp (h : Effect s i t) : t.fl = s.fl ∨ (∃ a b, i = .cmp a b) ∧ t.fault = s.fault := by
  cases h with
  | cmp => exact .inr ⟨⟨_, _, rfl⟩, rfl⟩
  | _ => exact .inl rfl

/-- A step that changes FL is one whose fetched bytes decode to a CMP. -/
theorem step_fl_of_ne (h : step s = .next t) (hne : t.fl ≠ s.fl) :
    ∃ a b, s.fetch.latchedInstr = some (.cmp a b) := by
  obtain ⟨-, rfl⟩ | ⟨-, -, rfl⟩ | ⟨-, i, hi, h⟩ := step_next h
  · exact absurd rfl hne
  · exact absurd rfl hne
  · obtain hfl | ⟨⟨a, b, rfl⟩, -⟩ := (exec_effect h).fl_eq_or_cmp
    · exact absurd hfl hne
    · exact ⟨a, b, hi⟩

/-- Settles O30, from what each instruction can do to FL. -/
theorem onlyCompareWritesFlags : Obligations.OnlyCompareWritesFlags := by
  refine ⟨fun i s t h hi => ?_, fun a b s ha hb => ?_, fun i s t h hs ht => ?_, fun s t => step_fl_of_ne,
    State.load_fl, resetWith_fl⟩
  · obtain hfl | ⟨⟨a, b, rfl⟩, -⟩ := (exec_effect h).fl_eq_or_cmp
    · exact hfl
    · exact absurd rfl (hi a b)
  · exact ⟨_, exec_cmp_of_lt ha hb s, Flags.compare_exactly_one _ _⟩
  · obtain hfl | ⟨-, hfault⟩ := (exec_effect h).fl_eq_or_cmp
    · exact hfl
    · exact absurd (hfault ▸ hs) ht

end Sys2Proof.Machine
end

section
/-! Rule R32: who reads FL. -/

namespace Sys2Proof.Machine

/-- If `r` is a next state, then `r'` is one that differs from it in FL alone. -/
def SameButFlags (r r' : Result) : Prop := ∀ t, r = .next t → ∃ u, r' = .next u ∧ u.setFlags t.fl = t

theorem sameButFlags_next {t u : State} (h : u.setFlags t.fl = t) : SameButFlags (.next t) (.next u) := by
  rintro _ ⟨⟩
  exact ⟨u, rfl, h⟩

/-- The operand check reads no flag, and its fault records none. -/
theorem sameButFlags_checkReg {a : Byte} {s : State} {f : Flags} {k k' : Reg → Result}
    (h : ∀ r, SameButFlags (k r) (k' r)) : SameButFlags (checkReg a s k) (checkReg a (s.setFlags f) k') := by
  obtain ha | ha := Nat.lt_or_ge a.toNat 8
  · rw [checkReg_of_lt ha, checkReg_of_lt ha]
    exact h _
  · rw [checkReg_of_ge ha, checkReg_of_ge ha]
    exact sameButFlags_next rfl

theorem sameButFlags_jumpToReg (a : Byte) (s : State) (f : Flags) :
    SameButFlags (jumpToReg a s) (jumpToReg a (s.setFlags f)) :=
  sameButFlags_checkReg fun _ => sameButFlags_next rfl

/-- The alu reads registers only, so both runs get the same output from it. -/
theorem sameButFlags_aluHandler (op : BitVec 3) (a b : Byte) (s : State) (f : Flags) :
    SameButFlags (aluHandler op a b s) (aluHandler op a b (s.setFlags f)) := by
  refine sameButFlags_checkReg fun ra => sameButFlags_checkReg fun rb => ?_
  simp only [State.setFlags_reg]
  cases alu op (s.reg ra) (s.reg rb) with
  | result v => exact sameButFlags_next rfl
  | flags g => exact sameButFlags_next rfl
  | fault kind => exact sameButFlags_next rfl

/-- An instruction does the same with other flags, if JEQ and JNE find the same E. -/
theorem sameButFlags_exec (i : Instr) (s : State) (f : Flags) (hf : f.e = s.fl.e ∨ ∀ a, i ≠ .jeq a ∧ i ≠ .jne a) :
    SameButFlags (exec i s) (exec i (s.setFlags f)) := by
  cases i with
  | hlt => exact sameButFlags_next rfl
  | ret => exact sameButFlags_next rfl
  | push a =>
    rw [exec_push, exec_push]
    exact sameButFlags_checkReg fun _ => sameButFlags_next rfl
  | pop a =>
    rw [exec_pop, exec_pop]
    exact sameButFlags_checkReg fun _ => sameButFlags_next rfl
  | prn a =>
    rw [exec_prn, exec_prn]
    exact sameButFlags_checkReg fun _ => sameButFlags_next rfl
  | call a =>
    rw [exec_call, exec_call]
    exact sameButFlags_checkReg fun _ => sameButFlags_next rfl
  | jmp a => exact sameButFlags_jumpToReg a s f
  | jeq a =>
    have he : f.e = s.fl.e := hf.resolve_right fun h => (h a).1 rfl
    rw [exec_jeq, exec_jeq, State.setFlags_fl, he]
    split
    · exact sameButFlags_jumpToReg a s f
    · exact sameButFlags_next rfl
  | jne a =>
    have he : f.e = s.fl.e := hf.resolve_right fun h => (h a).2 rfl
    rw [exec_jne, exec_jne, State.setFlags_fl, he]
    split
    · exact sameButFlags_next rfl
    · exact sameButFlags_jumpToReg a s f
  | ldi a imm =>
    rw [exec_ldi, exec_ldi]
    exact sameButFlags_checkReg fun _ => sameButFlags_next rfl
  | add a b => exact sameButFlags_aluHandler AluKind.add.code a b s f
  | mul a b => exact sameButFlags_aluHandler AluKind.mul.code a b s f
  | cmp a b => exact sameButFlags_aluHandler AluKind.cmp.code a b s f

/-- Settles O31: two runs compared arm by arm, and the two branches with E set and clear. -/
theorem onlyBranchesReadEqual : Obligations.OnlyBranchesReadEqual := by
  refine ⟨fun i s t f h hf => sameButFlags_exec i s f hf t h, fun a s ha hne => ⟨?_, ?_⟩⟩
  · exact ⟨_, _, jumpToReg_of_lt ha, rfl, hne⟩
  · exact ⟨_, _, rfl, jumpToReg_of_lt ha, hne.symm⟩

end Sys2Proof.Machine
end

section
/-! Rule R34: who writes RUN. -/

namespace Sys2Proof.Machine

variable {i : Instr} {s t : State}

/-- HLT clears RUN, and every other effect keeps it. -/
theorem Effect.run_eq (h : Effect s i t) : t.run = if i = .hlt then false else s.run := by
  cases h with
  | registerFault hmem =>
    have hi : i ≠ .hlt := by rintro rfl; cases hmem
    rw [if_neg hi, State.raise_run]
  | _ => rfl

/-- A step keeps RUN, or is a HLT of a core that can step, which clears RUN and raises no fault. -/
theorem step_run_eq_or_hlt (h : step s = .next t) : t.run = s.run ∨
    s.canStep = true ∧ s.fetch.latchedInstr = some .hlt ∧ t.run = false ∧ t.fault = s.fault := by
  obtain ⟨-, rfl⟩ | ⟨-, -, rfl⟩ | ⟨hc, i, hi, h⟩ := step_next h
  · exact .inl rfl
  · exact .inl rfl
  · by_cases hhlt : i = .hlt
    · subst hhlt
      cases h
      exact .inr ⟨hc, hi, rfl, rfl⟩
    · exact .inl ((exec_effect h).run_eq.trans (if_neg hhlt))

/-- A step that changes anything is one of a core that can step. -/
theorem canStep_of_step_ne (h : step s = .next t) (hne : t ≠ s) : s.canStep = true := by
  obtain ⟨-, ht⟩ | ⟨hc, -⟩ | ⟨hc, -⟩ := step_next h
  · exact absurd ht hne
  · exact hc
  · exact hc

/-- Settles O32, from what each instruction and each step can do to RUN. -/
theorem onlyHaltWritesRun : Obligations.OnlyHaltWritesRun := by
  refine ⟨fun _ => rfl, fun i s t h => (exec_effect h).run_eq, fun s t h hne => ?_, fun s t h hs ht => ?_,
    State.load_run, fun s t h hne => (canStep_iff s).mp (canStep_of_step_ne h hne)⟩
  · obtain hrun | ⟨hc, hi, hrun, -⟩ := step_run_eq_or_hlt h
    · exact absurd hrun hne
    · exact ⟨((canStep_iff s).mp hc).1, hrun, hi⟩
  · obtain hrun | ⟨-, -, -, hfault⟩ := step_run_eq_or_hlt h
    · have hne : t ≠ s := by rintro rfl; exact ht hs
      exact hrun.trans ((canStep_iff s).mp (canStep_of_step_ne h hne)).1
    · exact absurd (hfault ▸ hs) ht

end Sys2Proof.Machine
end

section
/-! Rules R51 and R61: what a write does to the memory, and what a second write to the same byte does. -/

namespace Sys2Proof.Machine

/-- Settles O41: a read after a write of the memory, for the same and for another byte. -/
theorem writeChangesExactlyOneByte : Obligations.WriteChangesExactlyOneByte := by
  intro s addr v hm
  refine ⟨?_, fun _ hne => State.byteAt_writeByte_other s v hne, rfl⟩
  rw [State.byteAt_writeByte hm, if_pos rfl]

namespace Memory

variable {k : Nat} {m : Memory}

/-- Below every key of a memory, a store puts its cell in front. -/
theorem insert_of_lt (v : Byte) (hk : ∀ c ∈ m, k < c.1) : insert k v m = cons k v m := by
  cases m with
  | nil => rfl
  | cons c m => exact if_pos (hk c (by simp))

theorem insert_of_head_eq (v : Byte) {c : Host.Cell} (m : Memory) (hk : k = c.1) :
    insert k v (c :: m) = cons k v m := by
  simp [insert, hk]

theorem insert_of_head_lt (v : Byte) {c : Host.Cell} (m : Memory) (hk : c.1 < k) :
    insert k v (c :: m) = c :: insert k v m := by
  simp [insert, hk.not_gt, hk.ne']

/-- A store after a `cons` with the same key, whether or not `cons` listed its cell. -/
theorem insert_cons (v w : Byte) (hk : ∀ c ∈ m, k < c.1) : insert k v (cons k w m) = cons k v m := by
  unfold cons
  split
  · exact insert_of_lt v hk
  · exact insert_of_head_eq v m rfl

/-- A second store under a key replaces the first, in a memory whose addresses rise: if they did not, a removed cell
could uncover a later one with the same key. -/
theorem insert_insert (v w : Byte) (hm : m.Pairwise fun c d => c.1 < d.1) :
    insert k v (insert k w m) = insert k v m := by
  induction m with
  | nil => exact insert_cons v w (by simp)
  | cons c m ih =>
    obtain ⟨hc, hm⟩ := List.pairwise_cons.mp hm
    obtain hlt | heq | hgt := Nat.lt_trichotomy k c.1
    · have hk : ∀ d ∈ c :: m, k < d.1 := List.forall_mem_cons.mpr ⟨hlt, fun d hd => hlt.trans (hc d hd)⟩
      rw [insert_of_lt w hk, insert_cons v w hk, insert_of_lt v hk]
    · rw [insert_of_head_eq w m heq, insert_cons v w (heq ▸ hc), insert_of_head_eq v m heq]
    · rw [insert_of_head_lt w m hgt, insert_of_head_lt v _ hgt, ih hm, insert_of_head_lt v m hgt]

/-- A second write to a byte replaces the first (rule R61). -/
theorem write_write (hm : wf m) (addr v w : Byte) : (m.write addr w).write addr v = m.write addr v :=
  insert_insert v w hm.1

end Memory

/-- Settles O52: the memories are equal, and a write changes nothing else. -/
theorem secondWriteReplacesFirst : Obligations.SecondWriteReplacesFirst := by
  intro s addr v w hm
  simp only [State.writeByte, Memory.write_write hm]

end Sys2Proof.Machine
end

/-! ## The execution loop (40_execution_loop.md) -/

section
/-! Rules R109, R131 and R212: which faults an instruction and a step can record. -/

namespace Sys2Proof.Machine

variable {i : Instr} {s t : State}

/-- An instruction leaves FAULT as it was, or records a RegisterIndexFault. -/
theorem Effect.fault_eq_or_registerIndexFault (h : Effect s i t) :
    t.fault = s.fault ∨ t.fault.kind = .registerIndexFault := by
  cases h with
  | registerFault => exact .inr rfl
  | _ => exact .inl rfl

/-- A step changes nothing, leaves a core with no fault, or records one of the two faults that are reachable. -/
theorem step_eq_or_fault_kind (h : step s = .next t) :
    t = s ∨ t.fault.kind = .none ∨ t.fault.kind = .unknownInstruction ∨ t.fault.kind = .registerIndexFault := by
  obtain ⟨-, ht⟩ | ⟨-, -, rfl⟩ | ⟨hc, i, -, h⟩ := step_next h
  · exact .inl ht
  · exact .inr (.inr (.inl rfl))
  · obtain hfault | hkind := (exec_effect h).fault_eq_or_registerIndexFault
    · exact .inr (.inl (hfault ▸ ((canStep_iff s).mp hc).2))
    · exact .inr (.inr (.inr hkind))

/-- Settles O37: the alu codes by the tables, the faults from what each instruction and each step can record. -/
theorem noHandlerReachesUnsupportedOperation : Obligations.NoHandlerReachesUnsupportedOperation := by
  refine ⟨fun a b s => ⟨exec_add a b s, exec_mul a b s, exec_cmp a b s⟩, fun o => ?_, fun i s t h hk => ?_,
    fun s t h hk => ?_⟩
  · cases o <;> decide
  · obtain hfault | hkind := (exec_effect h).fault_eq_or_registerIndexFault
    · exact hfault
    · cases hk.symm.trans hkind
  · obtain ht | hkind | hkind | hkind := step_eq_or_fault_kind h
    · exact ht
    all_goals cases hk.symm.trans hkind

end Sys2Proof.Machine
end

section
/-! Rules R102 and R211: an opcode byte with no handler. -/

namespace Sys2Proof.Machine

variable {s : State}

/-- An unknown opcode byte decodes to nothing, whatever the operand bytes. -/
theorem decodeBytes_eq_none {op : Byte} (h : Op.ofByte op = none) (a b : Byte) : decodeBytes op a b = none := by
  rw [decodeBytes, h, Option.map_none]

/-- A core that can step and fetches an unknown opcode raises UnknownInstruction on the fetched state. -/
theorem step_of_unknownOpcode (hc : s.canStep = true) (h : Op.ofByte (s.byteAt s.pc) = none) :
    step s = .next (s.fetch.raise .unknownInstruction 0) := by
  have hi : s.fetch.latchedInstr = none := decodeBytes_eq_none h _ _
  rw [step, if_pos hc, hi, unknownOpcode]

/-- A core that has raised a fault can take no step. -/
theorem State.canStep_raise {kind : FaultKind} (h : kind ≠ .none) (s : State) (detail : Byte) :
    (s.raise kind detail).canStep = false := by
  simp [State.canStep, h]

/-- Settles O6: the fetch writes the latch alone, and the raise after it FAULT alone. -/
theorem unknownOpcodeIsRecorded : Obligations.UnknownOpcodeIsRecorded := by
  intro s hrun hkind hop
  refine ⟨s.fetch.raise .unknownInstruction 0, step_of_unknownOpcode ((canStep_iff s).mpr ⟨hrun, hkind⟩) hop,
    rfl, rfl, rfl, rfl, rfl, rfl, rfl, fun _ => rfl, fun _ => rfl, rfl, rfl, rfl, rfl,
    State.canStep_raise (by decide) _ _⟩

end Sys2Proof.Machine
end

/-! ## The alu (41_alu.md) -/

section
/-! Rule R140: ADD. -/

namespace Sys2Proof.Machine

/-- The wrapping addition of rule R8, as the sum of the numbers modulo 256. -/
theorem add_eq_ofNat_sum_mod (x y : Byte) : x + y = BitVec.ofNat 8 ((x.toNat + y.toNat) % 256) :=
  BitVec.eq_of_toNat_eq (by rw [BitVec.toNat_add, BitVec.toNat_ofNat, Nat.mod_mod])

/-- A register write followed by a pc advance writes that register alone. -/
theorem writesOnlyReg_writeReg_advance (s : State) (r : Reg) (v len : Byte) :
    WritesOnlyReg s ((s.writeReg r v).advance len) r v := by
  refine ⟨?_, fun q hq => ?_⟩
  · rw [State.advance_eq, State.setPc_reg, State.reg_writeReg, if_pos rfl]
  · rw [State.advance_eq, State.setPc_reg, State.reg_writeReg, if_neg hq]

/-- Settles O12: the sum is written by the register write alone, and the handler's checks run in operand order. -/
theorem addWritesWrappedSum : Obligations.AddWritesWrappedSum := by
  refine ⟨fun a b => ⟨rfl, decodeBytes_eq_some.mpr ⟨.add, Op.ofByte_code .add, rfl⟩⟩, fun a b s ha hb => ?_,
    fun a b s ha => ?_, fun a b s ha hb => ?_⟩
  · rw [← add_eq_ofNat_sum_mod]
    exact ⟨_, exec_add_of_lt ha hb s, writesOnlyReg_writeReg_advance s _ _ 3, rfl, rfl, rfl, fun _ => rfl,
      rfl, rfl, rfl⟩
  · exact ⟨_, (exec_add a b s).trans (aluHandler_of_ge_a _ ha), rfl⟩
  · exact ⟨_, (exec_add a b s).trans (aluHandler_of_ge_b _ ha hb), rfl⟩

end Sys2Proof.Machine
end

/-! ## Data movement (42_data_movement.md) -/

section
/-! Rule R160: LDI. -/

namespace Sys2Proof.Machine

/-- LDI with its register operand in range writes the immediate byte to Ra. -/
theorem exec_ldi_of_lt {a : Byte} (ha : a.toNat < 8) (imm : Byte) (s : State) :
    exec (.ldi a imm) s = .next ((s.writeReg ⟨a.toNat, ha⟩ imm).advance 3) := by
  rw [exec_ldi, checkReg_of_lt ha]

/-- LDI with its register operand out of range raises before any write. -/
theorem exec_ldi_of_ge {a : Byte} (ha : 8 ≤ a.toNat) (imm : Byte) (s : State) :
    exec (.ldi a imm) s = .next (s.raise .registerIndexFault a) := by
  rw [exec_ldi, checkReg_of_ge ha]

/-- Settles O17: LDI is one register write and a pc advance, and HLT after it writes no register. -/
theorem ldiLoadsImmediate : Obligations.LdiLoadsImmediate := by
  refine ⟨fun a imm => ⟨rfl, decodeBytes_eq_some.mpr ⟨.ldi, Op.ofByte_code .ldi, rfl⟩⟩, fun a imm s ha => ?_,
    fun a imm s ha => ⟨_, exec_ldi_of_ge ha imm s, rfl⟩, fun a imm s ha => ?_⟩
  · exact ⟨_, exec_ldi_of_lt ha imm s, writesOnlyReg_writeReg_advance s _ imm 3, rfl, rfl, rfl, fun _ => rfl,
      rfl, rfl, rfl⟩
  · have hreg : ((s.writeReg ⟨a.toNat, ha⟩ imm).advance 3).reg ⟨a.toNat, ha⟩ = imm :=
      (writesOnlyReg_writeReg_advance s _ imm 3).1
    exact ⟨_, _, exec_ldi_of_lt ha imm s, exec_hlt _, hreg, rfl⟩

end Sys2Proof.Machine
end

/-! ## System (45_system.md) -/

section
/-! Rule R200: HLT, and the run of a core that is already terminal. -/

namespace Sys2Proof.Machine

/-- A core with RUN clear can take no step, whatever FAULT holds (rule R100). -/
theorem State.canStep_of_run_eq_false {s : State} (h : s.run = false) : s.canStep = false := by
  rw [State.canStep, h, Bool.false_and]

theorem State.terminal_of_canStep_eq_false {s : State} (h : s.canStep = false) : s.terminal = true := by
  rw [State.terminal, h, Bool.not_false]

/-- A run that starts on a terminal core returns it at once, whatever its bound (rule R108). -/
theorem runFor_of_terminal {s : State} (h : s.terminal = true) (k : Nat) : runFor k s = some s := by
  cases k with
  | zero => rw [runFor, if_pos h]
  | succ k => rw [runFor, if_pos h]

/-- Settles O28: HLT clears RUN and advances pc alone, and a core with RUN clear is terminal. -/
theorem hltClearsRun : Obligations.HltClearsRun := by
  refine ⟨rfl, fun a b => decodeBytes_eq_some.mpr ⟨.hlt, Op.ofByte_code .hlt, rfl⟩, fun s => ?_⟩
  have hrun : (s.halt.advance 1).run = false := rfl
  have hstep := State.canStep_of_run_eq_false hrun
  have hterm := State.terminal_of_canStep_eq_false hstep
  exact ⟨_, exec_hlt s, hrun, rfl, fun _ => rfl, rfl, rfl, rfl, rfl, fun _ => rfl, hterm, hstep,
    runFor_of_terminal hterm⟩

end Sys2Proof.Machine
end

/-! ## Encoding and decoding (30_encoding.md) -/

section
/-! Rules R70 to R75: decode and encode agree. -/

namespace Sys2Proof

/-- An instruction's encoding is its opcode and its two operand bytes, cut to the length of the opcode. -/
theorem encode_build (o : Op) (a b : Byte) : encode (o.build a b) = [o.code, a, b].take o.length := by
  cases o <;> rfl

/-- Every instruction is built from its opcode and two operand bytes. -/
theorem Instr.exists_build (i : Instr) : ∃ o a b, i = Op.build o a b := by
  cases i with
  | hlt => exact ⟨.hlt, 0, 0, rfl⟩
  | ret => exact ⟨.ret, 0, 0, rfl⟩
  | push a => exact ⟨.push, a, 0, rfl⟩
  | pop a => exact ⟨.pop, a, 0, rfl⟩
  | prn a => exact ⟨.prn, a, 0, rfl⟩
  | call a => exact ⟨.call, a, 0, rfl⟩
  | jmp a => exact ⟨.jmp, a, 0, rfl⟩
  | jeq a => exact ⟨.jeq, a, 0, rfl⟩
  | jne a => exact ⟨.jne, a, 0, rfl⟩
  | ldi a imm => exact ⟨.ldi, a, imm, rfl⟩
  | add a b => exact ⟨.add, a, b, rfl⟩
  | mul a b => exact ⟨.mul, a, b, rfl⟩
  | cmp a b => exact ⟨.cmp, a, b, rfl⟩

/-- An instruction does not depend on a byte past its end (rules R71, R77). -/
theorem Op.build_congr {o : Op} {a b a' b' : Byte} (ha : 2 ≤ o.length → a = a') (hb : 3 ≤ o.length → b = b') :
    o.build a b = o.build a' b' := by
  cases o with
  | hlt | ret => rfl
  | push | pop | prn | call | jmp | jeq | jne => rw [ha (by decide)]; rfl
  | ldi | add | mul | cmp => rw [ha (by decide), hb (by decide)]

/-- Decoding the bytes of an instruction, whatever follows. -/
theorem decode_take_build (o : Op) (a b : Byte) (rest : List Byte) :
    decode ([o.code, a, b].take o.length ++ rest) = .instr (o.build a b) rest := by
  cases o <;> rfl

/-- The first three of the bytes of an instruction and what follows are the instruction's own, up to its length. -/
theorem take_append_eq_cons {o : Op} {a b op a' b' : Byte} {rest more : List Byte}
    (h : [o.code, a, b].take o.length ++ rest = op :: a' :: b' :: more) :
    o.code = op ∧ (2 ≤ o.length → a' = a) ∧ (3 ≤ o.length → b' = b) := by
  have hlen : o.length = 1 ∨ o.length = 2 ∨ o.length = 3 := by cases o <;> decide
  obtain hlen | hlen | hlen := hlen <;> rw [hlen] at h ⊢ <;> simp_all

/-- Settles O2: an encoding is the opcode and the operand bytes cut to a length, and the decoder reads that length. -/
theorem decodeInvertsEncode : Obligations.DecodeInvertsEncode := by
  intro i rest
  obtain ⟨o, a, b, rfl⟩ := i.exists_build
  rw [encode_build]
  refine ⟨decode_take_build o a b rest, fun op a' b' more h => ?_⟩
  obtain ⟨hop, ha, hb⟩ := take_append_eq_cons h
  exact decodeBytes_eq_some.mpr ⟨o, hop ▸ Op.ofByte_code o, Op.build_congr ha hb⟩

/-- What decodes to an instruction starts with the bytes of its opcode's length. -/
theorem decode_eq_instr {bytes rest : List Byte} {i : Instr} (h : decode bytes = .instr i rest) :
    ∃ o a b, i = Op.build o a b ∧ bytes = [o.code, a, b].take o.length ++ rest := by
  cases bytes with
  | nil => cases h
  | cons op tail =>
    rw [decode] at h
    cases ho : Op.ofByte op with
    | none => rw [ho] at h; cases h
    | some o =>
      obtain rfl := Op.code_of_ofByte ho
      simp only [ho] at h
      split at h
      case h_1 hf => cases h; exact ⟨o, 0, 0, rfl, by rw [Op.length, hf]; rfl⟩
      case h_2 a _ hf => cases h; exact ⟨o, a, 0, rfl, by rw [Op.length, hf]; rfl⟩
      case h_3 a b _ hf => cases h; exact ⟨o, a, b, rfl, by rw [Op.length, hf]; rfl⟩
      case h_4 a b _ hf => cases h; exact ⟨o, a, b, rfl, by rw [Op.length, hf]; rfl⟩
      case h_5 => cases h

/-- Settles O3, from the bytes that a decoded run starts with. -/
theorem encodeInvertsDecode : Obligations.EncodeInvertsDecode := by
  intro bytes rest i h
  obtain ⟨o, a, b, rfl, rfl⟩ := decode_eq_instr h
  rw [encode_build]

/-- Settles O1: each word is decoded by evaluating the table. -/
theorem encodedWordsDecode : Obligations.EncodedWordsDecode := by
  unfold Obligations.EncodedWordsDecode
  decide

end Sys2Proof
end

section
/-! Rules R74 and R102: the opcode bytes outside the table. -/

namespace Sys2Proof

open Sys2Proof.Machine

theorem Op.mem_all (o : Op) : o ∈ Op.all := by cases o <;> decide

/-- A byte is unknown exactly when it is no row's opcode value (rule R74). -/
theorem Op.ofByte_eq_none_iff {op : Byte} : Op.ofByte op = none ↔ ∀ o : Op, o.code ≠ op := by
  simp [Op.ofByte, Op.mem_all]

/-- The opcode bytes outside the table: 119 with bit 7 clear and 124 with bit 7 set (rule R74). -/
theorem countP_unknown_opcodes :
    ((List.range 256).countP fun k => (Op.ofByte (BitVec.ofNat 8 k)).isNone) = 243 := by
  have hsplit : List.range 256 = List.range' 0 128 ++ List.range' 128 128 :=
    List.range_eq_range'.trans (List.range'_append_1 (s := 0) (m := 128) (n := 128)).symm
  have hlow : ((List.range' 0 128).countP fun k => (Op.ofByte (BitVec.ofNat 8 k)).isNone) = 119 := by decide
  have hhigh : ((List.range' 128 128).countP fun k => (Op.ofByte (BitVec.ofNat 8 k)).isNone) = 124 := by decide
  rw [hsplit, List.countP_append, hlow, hhigh]

/-- Settles O4: the unknown bytes are counted, and a step at one raises UnknownInstruction. -/
theorem otherOpcodesAreUnknown : Obligations.OtherOpcodesAreUnknown := by
  have hunknown : ∀ op ∈ [(0x00 : Byte), 0xFF, 0xA1, 0xA3], Op.ofByte op = none := by decide
  refine ⟨countP_unknown_opcodes, fun op => Op.ofByte_eq_none_iff,
    fun op hop => Op.ofByte_eq_none_iff.mp (hunknown op hop), fun s hrun hkind hop => ?_⟩
  have hc : s.canStep = true := (canStep_iff s).mpr ⟨hrun, hkind⟩
  exact ⟨_, step_of_unknownOpcode hc (Op.ofByte_eq_none_iff.mpr hop), rfl, rfl, rfl,
    State.canStep_raise (by decide) _ _⟩

end Sys2Proof
end

/-! ## The invariant of every step -/

section
/-! What an instruction does to FAULT, and where its operands stand in the latch. -/

namespace Sys2Proof

/-- The register operands of an instruction are operand bytes of the latch that it is built from. -/
theorem Op.registerOperands_build_subset (o : Op) (a b : Byte) : (o.build a b).registerOperands ⊆ [a, b] := by
  cases o <;> simp [Op.build, Instr.registerOperands]

namespace Machine

variable {i : Instr} {s t : State}

/-- The latched instruction is the one of a known opcode, built from the two latched operand bytes. -/
theorem State.latchedInstr_eq_some :
    s.latchedInstr = some i ↔ ∃ o, Op.ofByte s.ir.op = some o ∧ o.build s.ir.a s.ir.b = i :=
  decodeBytes_eq_some

/-- The core decodes to nothing exactly when the latched opcode is unknown. -/
theorem State.latchedInstr_eq_none : s.latchedInstr = none ↔ Op.ofByte s.ir.op = none :=
  Option.map_eq_none_iff

/-- An instruction keeps FAULT, or raises RegisterIndexFault for one of its operands. -/
theorem Effect.fault_eq_or_raise (h : Effect s i t) :
    t.fault = s.fault ∨ ∃ a ∈ i.registerOperands, 8 ≤ a.toNat ∧ t = s.raise .registerIndexFault a := by
  cases h with
  | registerFault hmem ha => exact .inr ⟨_, hmem, ha, rfl⟩
  | _ => exact .inl rfl

/-- Every instruction keeps the canonical form of the memory. -/
theorem Effect.mem_wf (h : Effect s i t) (hm : Memory.wf s.mem) : Memory.wf t.mem := by
  cases h with
  | push | call => exact Memory.wf_write hm _ _
  | _ => exact hm

end Machine

end Sys2Proof
end

section
/-! The invariant `State.Inv` holds of a state with an empty fault record and of one that has just raised a reachable
fault (rules R31, R34, R35, R109, R210 to R213). -/

namespace Sys2Proof.Machine

variable {i : Instr} {s t : State}

/-- At most one of E, L and G is set (rule R31). -/
def Flags.AtMostOne (f : Flags) : Prop :=
  ¬ (f.e = true ∧ f.l = true) ∧ ¬ (f.e = true ∧ f.g = true) ∧ ¬ (f.l = true ∧ f.g = true)

/-- Every comparison sets one flag and clears the others. -/
theorem Flags.atMostOne_compare (x y : Byte) : (Flags.compare x y).AtMostOne := by
  obtain h | h | h := Flags.compare_exactly_one x y <;> rw [h, Flags.AtMostOne] <;> decide

/-- Every instruction keeps at most one flag set. -/
theorem Effect.flags_atMostOne (h : Effect s i t) (hf : s.fl.AtMostOne) : t.fl.AtMostOne := by
  cases h with
  | cmp => exact Flags.atMostOne_compare _ _
  | _ => exact hf

/-- With an empty fault record, the fields of the invariant about faults hold. -/
theorem State.inv_of_clear (hm : Memory.wf s.mem) (hf : s.fl.AtMostOne) (hfault : s.fault = FaultRecord.clear) :
    s.Inv := by
  have hkind : s.fault.kind = .none := congrArg FaultRecord.kind hfault
  exact {
    mem_wf := hm
    flags_atMostOne := hf
    record_clear := fun _ => hfault
    kind_reachable := .inl hkind
    record_precise := fun h => absurd hkind h
    record_unknown := fun h => nomatch hkind.symm.trans h
    record_register := fun h => nomatch hkind.symm.trans h }

/-- Raising UnknownInstruction for a latched opcode outside the table. -/
theorem State.inv_raise_unknown (hm : Memory.wf s.mem) (hf : s.fl.AtMostOne) (hrun : s.run = true)
    (hop : Op.ofByte s.ir.op = none) : (s.raise .unknownInstruction 0).Inv where
  mem_wf := hm
  flags_atMostOne := hf
  record_clear h := nomatch h
  kind_reachable := .inr (.inl rfl)
  record_precise _ := ⟨hrun, rfl, rfl, rfl, rfl⟩
  record_unknown _ := ⟨hop, rfl⟩
  record_register h := nomatch h

/-- Raising RegisterIndexFault for a latched operand byte of 8 or more. -/
theorem State.inv_raise_register {a : Byte} (hm : Memory.wf s.mem) (hf : s.fl.AtMostOne) (hrun : s.run = true)
    (hop : Op.ofByte s.ir.op ≠ none) (ha : 8 ≤ a.toNat) (hmem : a = s.ir.a ∨ a = s.ir.b) :
    (s.raise .registerIndexFault a).Inv where
  mem_wf := hm
  flags_atMostOne := hf
  record_clear h := nomatch h
  kind_reachable := .inr (.inr rfl)
  record_precise _ := ⟨hrun, rfl, rfl, rfl, rfl⟩
  record_unknown h := nomatch h
  record_register _ := ⟨hop, ha, hmem⟩

/-- Running the latched instruction of a core with an empty fault record ends in the invariant. -/
theorem State.inv_of_exec_latched (hm : Memory.wf s.mem) (hf : s.fl.AtMostOne) (hrun : s.run = true)
    (hfault : s.fault = FaultRecord.clear) (hi : s.latchedInstr = some i) (h : exec i s = .next t) : t.Inv := by
  have heff := exec_effect h
  obtain hkeep | ⟨a, hmem, ha, rfl⟩ := heff.fault_eq_or_raise
  · exact State.inv_of_clear (heff.mem_wf hm) (heff.flags_atMostOne hf) (hkeep.trans hfault)
  · obtain ⟨o, ho, rfl⟩ := State.latchedInstr_eq_some.mp hi
    have hop : Op.ofByte s.ir.op ≠ none := by simp [ho]
    exact State.inv_raise_register hm hf hrun hop ha (by simpa using o.registerOperands_build_subset _ _ hmem)

/-- Settles O9: a terminal core keeps its state, and each of the two other ways of a step ends in the invariant. -/
theorem stepKeepsInvariant : Obligations.StepKeepsInvariant := by
  intro s t hinv h
  have hm : Memory.wf s.fetch.mem := hinv.mem_wf
  have hf : s.fetch.fl.AtMostOne := hinv.flags_atMostOne
  obtain ⟨-, rfl⟩ | ⟨hc, hi, rfl⟩ | ⟨hc, i, hi, h⟩ := step_next h
  · exact hinv
  · exact State.inv_raise_unknown hm hf ((canStep_iff s).mp hc).1 (State.latchedInstr_eq_none.mp hi)
  · obtain ⟨hrun, hkind⟩ := (canStep_iff s).mp hc
    exact State.inv_of_exec_latched hm hf hrun (hinv.record_clear hkind) hi h

/-- Settles O10: reset leaves an empty fault record, no flag and a memory that lists nothing. -/
theorem resetMeetsInvariant : Obligations.ResetMeetsInvariant :=
  State.inv_of_clear Memory.wf_nil (by rw [Flags.AtMostOne]; decide) rfl

/-- Writing bytes keeps the canonical form of the memory. -/
theorem wf_storeBytes (addr : Byte) (bytes : List Byte) {s : State} (hm : Memory.wf s.mem) :
    Memory.wf (storeBytes addr bytes s).mem := by
  induction bytes generalizing addr s with
  | nil => exact hm
  | cons v vs ih => exact ih (addr + 1) (Memory.wf_write hm addr v)

@[simp] theorem State.load_fault (program : List Byte) (s : State) : (s.load program).fault = s.fault := by
  obtain ⟨m, hm⟩ := storeBytes_writes_only_mem Config.loadBase program s
  rw [State.load, hm]

/-- When a load is accepted: on a fresh core, at most `MAX_PROGRAM` values, each a byte (rule R242). -/
def Session.Accepts (u : Session) (values : List Int) : Prop :=
  u.phase = .fresh ∧ values.length ≤ Config.maxProgram ∧ ∀ v ∈ values, 0 ≤ v ∧ v ≤ 255

theorem Session.load_of_accepts {u : Session} {values : List Int} (h : u.Accepts values) :
    u.load values = .accepted { phase := .loaded, core := u.core.load (values.map fun v => BitVec.ofInt 8 v) } := by
  obtain ⟨hphase, hlen, hrange⟩ := h
  rw [Session.load, if_neg (not_not.mpr hphase), if_neg (Nat.not_lt.mpr hlen), if_pos (by simpa using hrange)]

theorem Session.load_of_not_accepts {u : Session} {values : List Int} (h : ¬ u.Accepts values) :
    ∃ why, u.load values = u.refuse why := by
  unfold Session.load
  split_ifs with hphase hlen hrange
  · exact ⟨_, rfl⟩
  · exact ⟨_, rfl⟩
  · exact absurd ⟨not_not.mp hphase, Nat.not_lt.mp hlen, by simpa using hrange⟩ h
  · exact ⟨_, rfl⟩

/-- A load that is accepted leaves the core with the values placed as bytes. -/
theorem Session.core_of_load_accepted {values : List Int} {u u' : Session} (h : u.load values = .accepted u') :
    u'.core = u.core.load (values.map fun v => BitVec.ofInt 8 v) := by
  by_cases hacc : u.Accepts values
  · cases (Session.load_of_accepts hacc).symm.trans h
    rfl
  · obtain ⟨why, hwhy⟩ := Session.load_of_not_accepts hacc
    cases hwhy.symm.trans h

/-- Settles O11: reset and an accepted load leave FL and FAULT clear and the memory in its form. -/
theorem loadedCoreMeetsInvariant : Obligations.LoadedCoreMeetsInvariant := by
  intro initMemory values
  have hm : Memory.wf (State.resetWith initMemory).mem := Memory.wf_ofFun initMemory
  have hf : (State.resetWith initMemory).fl.AtMostOne := resetMeetsInvariant.flags_atMostOne
  refine ⟨State.inv_of_clear hm hf rfl, fun u h => ?_⟩
  rw [Session.core_of_load_accepted h]
  exact State.inv_of_clear (wf_storeBytes _ _ hm) ((State.load_fl _ _).symm ▸ hf) (State.load_fault _ _)

end Sys2Proof.Machine
end

/-! ## The step and the run (40_execution_loop.md) -/

section
/-! Rules R52, R100, R107 and R213: what a step answers. -/

namespace Sys2Proof.Machine

variable {i : Instr} {s t : State}

theorem jumpToReg_answers (a : Byte) (s : State) : ∃ t, jumpToReg a s = .next t :=
  checkReg_answers fun _ => ⟨_, rfl⟩

/-- Every handler answers a next state: a fault of the core is one too. -/
theorem exec_answers (i : Instr) (s : State) : ∃ t, exec i s = .next t := by
  cases i with
  | hlt => exact ⟨_, exec_hlt s⟩
  | ret => exact ⟨_, exec_ret s⟩
  | push a => rw [exec_push]; exact checkReg_answers fun _ => ⟨_, rfl⟩
  | pop a => rw [exec_pop]; exact checkReg_answers fun _ => ⟨_, rfl⟩
  | prn a => rw [exec_prn]; exact checkReg_answers fun _ => ⟨_, rfl⟩
  | call a => rw [exec_call]; exact checkReg_answers fun _ => ⟨_, rfl⟩
  | jmp a => exact jumpToReg_answers a s
  | jeq a =>
    rw [exec_jeq]
    split
    · exact jumpToReg_answers a s
    · exact ⟨_, rfl⟩
  | jne a =>
    rw [exec_jne]
    split
    · exact ⟨_, rfl⟩
    · exact jumpToReg_answers a s
  | ldi a imm => rw [exec_ldi]; exact checkReg_answers fun _ => ⟨_, rfl⟩
  | add a b => exact aluHandler_answers AluKind.add.code
  | mul a b => exact aluHandler_answers AluKind.mul.code
  | cmp a b => exact aluHandler_answers AluKind.cmp.code

/-- Settles O8: a terminal core, an unknown opcode and a handler each answer a next state. -/
theorem everyStepAnswersNext : Obligations.EveryStepAnswersNext := by
  intro s
  obtain ⟨-, h⟩ | ⟨-, -, h⟩ | ⟨-, i, -, h⟩ := step_cases s
  · exact ⟨_, h⟩
  · exact ⟨_, h⟩
  · exact h ▸ exec_answers i s.fetch

/-- Settles O5: the step of a core that can step, with what the latch decodes to. -/
theorem stepRunsDecodedInstruction : Obligations.StepRunsDecodedInstruction := by
  intro s i hrun hkind hi
  have hc : s.canStep = true := (canStep_iff s).mpr ⟨hrun, hkind⟩
  have hlatch : s.fetch.latchedInstr = some i := hi
  rw [step, if_pos hc, hlatch]
  rfl

/-- Settles O45: the fetch is a latch of the bytes at pc and after it, with the wrap of rule R8 written out. -/
theorem fetchLatchesThreeWrappedBytes : Obligations.FetchLatchesThreeWrappedBytes := by
  intro s
  exact ⟨rfl, congrArg s.byteAt (add_eq_ofNat_sum_mod s.pc 1), congrArg s.byteAt (add_eq_ofNat_sum_mod s.pc 2), rfl⟩

end Sys2Proof.Machine
end

section
/-! Rules R107, R108, R217 and R225: a terminal core, and the run to its end. -/

namespace Sys2Proof.Machine

variable {s t u : State} {j k : Nat}

theorem State.terminal_iff : s.terminal = true ↔ s.canStep = false := by
  rw [State.terminal, Bool.not_eq_true']

/-- A terminal core answers its own state. -/
theorem step_of_terminal (h : s.terminal = true) : step s = .next s := by
  rw [step, if_neg (by simp [State.terminal_iff.mp h]), noStep]

/-- The host's run of one step more is a step and the run from there. -/
theorem coreRun_succ (h : step s = .next u) (k : Nat) :
    Host.Core.run Sys2Proof.core (k + 1) s = Host.Core.run Sys2Proof.core k u := by
  have hstep : Sys2Proof.core.step s = .next u := h
  simp only [Host.Core.run, hstep]

/-- A terminal core keeps its state for any number of steps (rules R107, R225). -/
theorem coreRun_of_terminal (h : s.terminal = true) (k : Nat) : Host.Core.run Sys2Proof.core k s = .next s := by
  induction k with
  | zero => rfl
  | succ k ih => rw [coreRun_succ (step_of_terminal h), ih]

/-- Settles O7: a halted or faulted core is terminal, and a terminal core answers its own state. -/
theorem terminalCoreKeepsItsState : Obligations.TerminalCoreKeepsItsState := by
  intro s k h
  have hc : s.canStep = false := by
    rw [Bool.eq_false_iff, ne_eq, canStep_iff]
    rintro ⟨hrun, hkind⟩
    obtain h | h := h
    · cases h.symm.trans hrun
    · exact h hkind
  have hterm := State.terminal_of_canStep_eq_false hc
  exact ⟨coreRun_of_terminal hterm k, runFor_of_terminal hterm k⟩

/-- A bounded run of a core that can step is a step and the rest of the run. -/
theorem runFor_succ (ht : s.terminal = false) (h : step s = .next u) (k : Nat) : runFor (k + 1) s = runFor k u := by
  rw [runFor, if_neg (by simp [ht]), h]

/-- For a core that is already terminal the two runs agree at once. -/
theorem runFor_eq_some_iff_of_terminal (hs : s.terminal = true) :
    runFor k s = some t ↔ Host.Core.run Sys2Proof.core k s = .next t ∧ t.terminal = true := by
  rw [runFor_of_terminal hs, coreRun_of_terminal hs]
  constructor
  · rintro ⟨⟩
    exact ⟨rfl, hs⟩
  · rintro ⟨⟨⟩, -⟩
    rfl

/-- The bounded run ends in a state exactly when that many steps lead to it and it is terminal. -/
theorem runFor_eq_some_iff :
    runFor k s = some t ↔ Host.Core.run Sys2Proof.core k s = .next t ∧ t.terminal = true := by
  induction k generalizing s with
  | zero =>
    cases hs : s.terminal with
    | true => exact runFor_eq_some_iff_of_terminal hs
    | false =>
      rw [runFor, if_neg (by simp [hs])]
      refine iff_of_false nofun ?_
      rintro ⟨⟨⟩, ht⟩
      exact absurd ht (by simp [hs])
  | succ k ih =>
    cases hs : s.terminal with
    | true => exact runFor_eq_some_iff_of_terminal hs
    | false =>
      obtain ⟨u, hu⟩ := everyStepAnswersNext s
      rw [runFor_succ hs hu, coreRun_succ hu]
      exact ih

/-- A run of `j + k` steps is a run of `j` steps and then one of `k`. -/
theorem coreRun_add (h : Host.Core.run Sys2Proof.core j s = .next u) (k : Nat) :
    Host.Core.run Sys2Proof.core (j + k) s = Host.Core.run Sys2Proof.core k u := by
  induction j generalizing s with
  | zero => cases h; rw [Nat.zero_add]
  | succ j ih =>
    obtain ⟨v, hv⟩ := everyStepAnswersNext s
    rw [coreRun_succ hv] at h
    rw [Nat.add_right_comm, coreRun_succ hv, ih h]

/-- More allowed steps do not change the outcome. -/
theorem runFor_add (h : runFor k s = some t) (n : Nat) : runFor (k + n) s = some t := by
  obtain ⟨hrun, ht⟩ := runFor_eq_some_iff.mp h
  exact runFor_eq_some_iff.mpr ⟨(coreRun_add hrun n).trans (coreRun_of_terminal ht n), ht⟩

/-- Two bounds give the same outcome. -/
theorem runFor_unique (h : runFor k s = some t) (h' : runFor j s = some u) : t = u := by
  have hk := runFor_add h j
  rw [Nat.add_comm, runFor_add h' k] at hk
  cases hk
  rfl

/-- A run that ends does so at its first terminal state: from every state before that the core can step. -/
theorem exists_shortest_run (h : runFor k s = some t) : ∃ j ≤ k, Host.Core.run Sys2Proof.core j s = .next t ∧
    ∀ m u, m < j → Host.Core.run Sys2Proof.core m s = .next u → u.canStep = true := by
  have hex : ∃ j, runFor j s = some t := ⟨k, h⟩
  refine ⟨Nat.find hex, Nat.find_min' hex h, (runFor_eq_some_iff.mp (Nat.find_spec hex)).1, fun m u hm hu => ?_⟩
  by_contra hc
  have hend : runFor m s = some u :=
    runFor_eq_some_iff.mpr ⟨hu, State.terminal_of_canStep_eq_false (by simpa using hc)⟩
  exact Nat.find_min hex hm (runFor_unique hend h ▸ hend)

/-- A hang is a run with no terminal state (rule R108). -/
theorem hangs_iff : Hangs s ↔ ∀ k t, Host.Core.run Sys2Proof.core k s = .next t → t.terminal = false := by
  constructor
  · intro h k t hrun
    rw [Bool.eq_false_iff]
    intro ht
    cases (h k).symm.trans (runFor_eq_some_iff.mpr ⟨hrun, ht⟩)
  · intro h k
    rw [Option.eq_none_iff_forall_not_mem]
    intro t hend
    obtain ⟨hrun, ht⟩ := runFor_eq_some_iff.mp hend
    cases ht.symm.trans (h k t hrun)

/-- Settles O50, from the agreement of the bounded run with the host's run. -/
theorem runOutcomeIsUnique : Obligations.RunOutcomeIsUnique := by
  refine ⟨?_, fun k n s t h => ?_, fun k s t => exists_shortest_run, fun s => hangs_iff⟩
  · rintro s t t' ⟨k, h⟩ ⟨k', h'⟩
    exact runFor_unique h h'
  · obtain ⟨hrun, ht⟩ := runFor_eq_some_iff.mp h
    exact ⟨runFor_add h n, ht, hrun⟩

end Sys2Proof.Machine
end

/-! ## Reset and load (70_reset_and_hazards.md) -/

section
/-! Rules R57, R240 and R242: the state after reset, the accepted loads and the refused ones. -/

namespace Sys2Proof.Machine

/-- Settles O47: memory reads as `INIT_MEMORY`, and no other reset value depends on it. -/
theorem resetLeavesCoreReady : Obligations.ResetLeavesCoreReady := fun initMemory =>
  ⟨rfl, rfl, rfl, rfl, rfl, rfl, Memory.read_ofFun initMemory⟩

/-- What each byte reads after bytes are written at ascending addresses, at most one to each address. -/
theorem byteAt_storeBytes (addr : Byte) (bytes : List Byte) {s : State} (hm : Memory.wf s.mem)
    (hlen : bytes.length ≤ 256) (p : Byte) :
    (storeBytes addr bytes s).byteAt p = (bytes[(p - addr).toNat]?).getD (s.byteAt p) := by
  induction bytes generalizing addr s with
  | nil => rfl
  | cons v vs ih =>
    have hlen' : vs.length ≤ 255 := Nat.le_of_succ_le_succ hlen
    rw [storeBytes, ih (addr + 1) (Memory.wf_write hm addr v) (by omega), State.byteAt_writeByte hm]
    by_cases hp : p = addr
    · have hfar : (p - (addr + 1)).toNat = 255 := by bv_omega
      have hnear : (p - addr).toNat = 0 := by bv_omega
      rw [if_pos hp, hfar, hnear, List.getElem?_eq_none hlen']
      rfl
    · have hnext : (p - addr).toNat = (p - (addr + 1)).toNat + 1 := by bv_omega
      rw [if_neg hp, hnext, List.getElem?_cons_succ]

/-- What each byte reads after a load (rule R242). -/
theorem byteAt_load {program : List Byte} {s : State} (hm : Memory.wf s.mem) (hlen : program.length ≤ 256) (p : Byte) :
    (s.load program).byteAt p = (program[p.toNat]?).getD (s.byteAt p) := by
  rw [State.load, byteAt_storeBytes _ _ hm hlen, Config.loadBase, sub_zero]

/-- A value in 0 to 255 is the number of the byte that the load places. -/
theorem toNat_ofInt_of_byte {v : Int} (h : 0 ≤ v ∧ v ≤ 255) : (BitVec.ofInt 8 v).toNat = v.toNat := by
  rw [BitVec.toNat_ofInt]
  omega

/-- Settles O48: the load is accepted, writes memory alone, and each byte reads as the value placed on it. -/
theorem loadPlacesProgramAtZero : Obligations.LoadPlacesProgramAtZero := by
  intro initMemory values hlen hrange
  have hacc : (Session.construct initMemory).Accepts values := ⟨rfl, hlen, hrange⟩
  refine ⟨_, Session.load_of_accepts hacc, rfl, fun addr => ?_, ?_⟩
  · have hread : (State.resetWith initMemory).byteAt addr = initMemory addr := Memory.read_ofFun initMemory addr
    simp only [Session.construct]
    rw [byteAt_load (Memory.wf_ofFun initMemory) (by simpa using hlen), hread, List.getElem?_map]
    cases hv : values[addr.toNat]? with
    | none => rfl
    | some v => exact toNat_ofInt_of_byte (hrange v (List.mem_of_getElem? hv))
  · obtain ⟨m, hm⟩ := storeBytes_writes_only_mem Config.loadBase (values.map fun v => BitVec.ofInt 8 v)
      (State.resetWith initMemory)
    simp only [Session.construct, State.load, hm]

/-- Settles O49: a load that is not accepted keeps the core and puts its host into the phase that never runs it. -/
theorem badLoadIsRefused : Obligations.BadLoadIsRefused := by
  intro u values hbad
  have hacc : ¬ u.Accepts values := by
    rintro ⟨hphase, hlen, hrange⟩
    obtain hlong | ⟨v, hv, hout⟩ | hnotFresh := hbad
    · exact absurd hlen (Nat.not_le.mpr hlong)
    · have hin := hrange v hv
      omega
    · exact hnotFresh hphase
  obtain ⟨why, hwhy⟩ := Session.load_of_not_accepts hacc
  exact ⟨why, _, hwhy, rfl, fun _ => rfl⟩

end Sys2Proof.Machine
end

/-! ## MUL, CMP and the alu block (41_alu.md) -/

section
/-! Rules R130, R131, R141, R142, R214 and R215. -/

namespace Sys2Proof.Machine

/-- The wrapping multiplication of rule R8, as the product of the numbers modulo 256. -/
theorem mul_eq_ofNat_product_mod (x y : Byte) : x * y = BitVec.ofNat 8 ((x.toNat * y.toNat) % 256) :=
  BitVec.eq_of_toNat_eq (by rw [BitVec.toNat_mul, BitVec.toNat_ofNat, Nat.mod_mod])

/-- The wrapping subtraction of rule R8, as the difference of the numbers modulo 256. -/
theorem sub_eq_ofInt_difference_mod (x y : Byte) : x - y = BitVec.ofInt 8 (((x.toNat : Int) - y.toNat) % 256) :=
  BitVec.eq_of_toNat_eq (by rw [BitVec.toNat_sub, BitVec.toNat_ofInt]; omega)

/-- The truncating division of decision D4, as the quotient of the numbers. -/
theorem div_eq_ofNat_quotient (x y : Byte) : x / y = BitVec.ofNat 8 (x.toNat / y.toNat) := by
  have hle : x.toNat / y.toNat ≤ x.toNat := Nat.div_le_self _ _
  refine BitVec.eq_of_toNat_eq ?_
  rw [BitVec.toNat_udiv, BitVec.toNat_ofNat, Nat.mod_eq_of_lt (hle.trans_lt x.isLt)]

/-- Each flag of a comparison, as a comparison of the numbers (rule R142; decision D6). -/
theorem Flags.compare_iff (x y : Byte) :
    ((Flags.compare x y).e = true ↔ x.toNat = y.toNat) ∧ ((Flags.compare x y).l = true ↔ x.toNat < y.toNat) ∧
    ((Flags.compare x y).g = true ↔ y.toNat < x.toNat) := by
  unfold Flags.compare
  split
  · subst_vars
    simp
  · rename_i hne
    have hnat : x.toNat ≠ y.toNat := fun h => hne (BitVec.eq_of_toNat_eq h)
    split
    · have hlt : x.toNat < y.toNat := ‹x < y›
      simp only [Bool.false_eq_true, false_iff, true_iff]
      omega
    · have hge : ¬ x.toNat < y.toNat := ‹¬ x < y›
      simp only [Bool.false_eq_true, false_iff, true_iff]
      omega

/-- The codes 5, 6 and 7 have no operation (rule R130). -/
theorem alu_of_code_ge_five {op : BitVec 3} (h : 5 ≤ op.toNat) (x y : Byte) :
    alu op x y = .fault .unsupportedOperation := by
  have hnone : ∀ op : BitVec 3, 5 ≤ op.toNat → AluKind.ofCode op = none := by decide
  rw [alu, hnone op h]

theorem alu_div_zero (x : Byte) : alu AluKind.div.code x 0 = .fault .divideByZero := alu_code .div x 0

theorem alu_div_of_ne_zero (x : Byte) {y : Byte} (h : y ≠ 0) : alu AluKind.div.code x y = .result (x / y) :=
  (alu_code .div x y).trans (if_neg h)

/-- Settles O15, from the wrapping operations as operations on numbers. -/
theorem aluBlockComputes : Obligations.AluBlockComputes := by
  intro x y
  rw [← add_eq_ofNat_sum_mod, ← sub_eq_ofInt_difference_mod, ← mul_eq_ofNat_product_mod, ← div_eq_ofNat_quotient]
  exact ⟨alu_code .add x y, alu_code .sub x y, alu_code .mul x y, alu_div_of_ne_zero x, alu_div_zero x,
    ⟨_, alu_code .cmp x y, Flags.compare_iff x y⟩, fun op h => alu_of_code_ge_five h x y⟩

/-- Settles O13: MUL is one register write and a pc advance, and the handler's checks run in operand order. -/
theorem mulWritesLowProduct : Obligations.MulWritesLowProduct := by
  refine ⟨fun a b s ha hb => ?_, fun a b s ha => ⟨_, (exec_mul a b s).trans (aluHandler_of_ge_a _ ha), rfl⟩,
    fun a b s ha hb => ⟨_, (exec_mul a b s).trans (aluHandler_of_ge_b _ ha hb), rfl⟩⟩
  rw [← mul_eq_ofNat_product_mod]
  exact ⟨_, exec_mul_of_lt ha hb s, writesOnlyReg_writeReg_advance s _ _ 3, rfl, rfl, rfl, fun _ => rfl, rfl, rfl, rfl⟩

/-- Settles O14: CMP writes the comparison to FL alone, and the handler's checks run in operand order. -/
theorem cmpSetsExactlyOneFlag : Obligations.CmpSetsExactlyOneFlag := by
  refine ⟨fun a b s ha hb => ?_, fun a b s ha => ⟨_, (exec_cmp a b s).trans (aluHandler_of_ge_a _ ha), rfl⟩,
    fun a b s ha hb => ⟨_, (exec_cmp a b s).trans (aluHandler_of_ge_b _ ha hb), rfl⟩⟩
  obtain ⟨he, hl, hg⟩ := Flags.compare_iff (s.reg ⟨a.toNat, ha⟩) (s.reg ⟨b.toNat, hb⟩)
  exact ⟨_, exec_cmp_of_lt ha hb s, he, hl, hg, rfl, fun _ => rfl, rfl, fun _ => rfl, rfl, rfl, rfl⟩

/-- The alu handler raises the fault that the alu drives, with detail 0. -/
theorem aluHandler_of_fault {op : BitVec 3} {a b : Byte} {s : State} {kind : FaultKind} (ha : a.toNat < 8)
    (hb : b.toNat < 8) (h : alu op (s.reg ⟨a.toNat, ha⟩) (s.reg ⟨b.toNat, hb⟩) = .fault kind) :
    aluHandler op a b s = .next (s.raise kind 0) := by
  rw [aluHandler_of_lt op ha hb, h]

/-- Settles O16: the two faults that the alu drives are raised by the handler. -/
theorem aluFaultsAreRaisedBeforeAnyWrite : Obligations.AluFaultsAreRaisedBeforeAnyWrite := by
  refine ⟨fun op a b s ha hb hop => ?_, fun a b s ha hb hzero => ?_⟩
  · exact ⟨_, aluHandler_of_fault ha hb (alu_of_code_ge_five hop _ _), rfl⟩
  · exact ⟨_, aluHandler_of_fault ha hb (by rw [hzero]; exact alu_div_zero _), rfl⟩

end Sys2Proof.Machine
end

/-! ## PRN, the stack and the control transfers (42_data_movement.md, 43_stack.md, 44_control_transfer.md) -/

section
/-! Rule R163: PRN. -/

namespace Sys2Proof.Machine

/-- Settles O18: PRN emits the register's value and advances pc, or raises before anything is emitted. -/
theorem prnEmitsRegister : Obligations.PrnEmitsRegister := by
  refine ⟨fun a s ha => ?_, fun a s ha => ⟨_, (exec_prn a s).trans (checkReg_of_ge ha s _), rfl⟩⟩
  exact ⟨_, (exec_prn a s).trans (checkReg_of_lt ha s _), rfl, rfl, fun _ => rfl, rfl, fun _ => rfl, rfl, rfl, rfl⟩

end Sys2Proof.Machine
end

section
/-! Rules R59, R170 and R171: PUSH and POP. -/

namespace Sys2Proof.Machine

/-- The operand byte 7 names SP. -/
theorem operand_eq_spReg_iff {a : Byte} (ha : a.toNat < 8) : (⟨a.toNat, ha⟩ : Reg) = spReg ↔ a = 7 := by
  rw [spReg, Fin.ext_iff, ← BitVec.toNat_inj]
  rfl

/-- Reading the operand register after the decrement of SP, as PUSH and CALL do (rule R247). -/
theorem reg_decSp_operand (s : State) {a : Byte} (ha : a.toNat < 8) :
    s.decSp.reg ⟨a.toNat, ha⟩ = if a = 7 then s.sp - 1 else s.reg ⟨a.toNat, ha⟩ := by
  simp only [State.decSp_eq, State.reg_writeReg, operand_eq_spReg_iff]

/-- A register write writes that register alone. -/
theorem writesOnlyReg_writeReg (s : State) (r : Reg) (v : Byte) : WritesOnlyReg s (s.writeReg r v) r v :=
  ⟨by rw [State.reg_writeReg, if_pos rfl], fun q hq => by rw [State.reg_writeReg, if_neg hq]⟩

/-- SP after its own decrement. -/
theorem sp_decSp (s : State) : s.decSp.sp = s.sp - 1 := (writesOnlyReg_writeReg s spReg (s.sp - 1)).1

/-- The two halves of a push store one byte, at the decremented SP (rule R59). -/
theorem storesOnly_push {s : State} (hm : Memory.wf s.mem) (v : Byte) :
    StoresOnly s (s.decSp.storeTop v) (s.sp - 1) v := by
  have hm' : Memory.wf s.decSp.mem := hm
  rw [State.storeTop_eq, sp_decSp]
  refine ⟨?_, fun other hne => ?_⟩
  · rw [State.byteAt_writeByte hm', if_pos rfl]
  · exact State.byteAt_writeByte_other s.decSp v hne

/-- Settles O19: a push writes SP and one byte, and the value stored is read after the decrement. -/
theorem pushStoresBelowStackTop : Obligations.PushStoresBelowStackTop := by
  refine ⟨fun a s ha hm => ?_, fun a s ha => ⟨_, (exec_push a s).trans (checkReg_of_ge ha s _), rfl⟩⟩
  rw [← reg_decSp_operand s ha]
  exact ⟨_, (exec_push a s).trans (checkReg_of_lt ha s _), writesOnlyReg_writeReg s 7 (s.sp - 1), storesOnly_push hm _,
    rfl, rfl, rfl, rfl, rfl, rfl⟩

/-- SP after a write of another register and the increment of SP. -/
theorem reg_incSp_writeReg (s : State) (r : Reg) (v : Byte) (q : Reg) : (s.writeReg r v).incSp.reg q =
    if q = 7 then (if r = 7 then v + 1 else s.sp + 1) else if q = r then v else s.reg q := by
  simp only [State.incSp_eq, State.sp_eq, State.reg_writeReg, spReg, eq_comm (a := (7 : Reg)) (b := r)]
  split_ifs <;> rfl

/-- Settles O20: POP writes Ra and then SP, and both are one register for R7. -/
theorem popLoadsStackTop : Obligations.PopLoadsStackTop := by
  refine ⟨fun a s ha => ?_, fun a s ha => ⟨_, (exec_pop a s).trans (checkReg_of_ge ha s _), rfl⟩⟩
  have hreg := reg_incSp_writeReg s ⟨a.toNat, ha⟩ s.loadTop
  refine ⟨_, (exec_pop a s).trans (checkReg_of_lt ha s _), fun h7 => ?_, fun h7 => ?_, rfl, rfl, rfl, fun _ => rfl, rfl,
    rfl, rfl⟩
  · have hsp : (⟨a.toNat, ha⟩ : Reg) = 7 := (operand_eq_spReg_iff ha).mpr h7
    rw [hsp] at hreg ⊢
    exact ⟨(hreg 7).trans rfl, fun q hq => (hreg q).trans (by rw [if_neg hq, if_neg hq])⟩
  · have hsp : (⟨a.toNat, ha⟩ : Reg) ≠ 7 := fun h => h7 ((operand_eq_spReg_iff ha).mp h)
    refine ⟨(hreg _).trans (by rw [if_neg hsp, if_pos rfl]; rfl), (hreg 7).trans (by rw [if_pos rfl, if_neg hsp]),
      fun q hqa hq => (hreg q).trans ?_⟩
    rw [if_neg hq, if_neg fun h => hqa (congrArg Fin.val h)]

/-- Settles O21, from what PUSH and POP each write. -/
theorem pushThenPopRestoresRegisters : Obligations.PushThenPopRestoresRegisters := by
  intro a s ha hm
  obtain ⟨t, hpush, ⟨htsp, htreg⟩, ⟨htop, hbelow⟩, -⟩ := pushStoresBelowStackTop.1 a s ha hm
  obtain ⟨u, hpop, hpop7, hpopOther, -, -, -, hmem, -⟩ := popLoadsStackTop.1 a t ha
  have htsp' : t.sp = s.sp - 1 := htsp
  have hbyte : ∀ addr, addr ≠ s.sp - 1 → u.byteAt addr = s.byteAt addr :=
    fun addr h => (hmem addr).trans (hbelow addr h)
  have hregs : SameRegs s u := by
    intro q
    by_cases h7 : a = 7
    · obtain ⟨husp, hureg⟩ := hpop7 h7
      by_cases hq : q = 7
      · rw [hq, husp, htsp', htop, if_pos h7, sub_add_cancel]
        rfl
      · rw [hureg q hq, htreg q hq]
    · obtain ⟨hua, husp, hureg⟩ := hpopOther h7
      by_cases hq : q = 7
      · have husp' : u.reg 7 = t.sp + 1 := husp
        rw [hq, husp', htsp', sub_add_cancel]
        rfl
      · by_cases hqa : q.val = a.toNat
        · obtain rfl : q = ⟨a.toNat, ha⟩ := Fin.ext hqa
          rw [hua, htsp', htop, if_neg h7]
        · rw [hureg q hqa hq, htreg q hq]
  exact ⟨t, u, hpush, hpop, hregs, hregs 7, hbyte⟩

end Sys2Proof.Machine
end

section
/-! Rules R180 to R184: CALL, RET and the jumps. -/

namespace Sys2Proof.Machine

/-- Settles O22: a CALL is a push of the return address and a jump through the register read after the decrement. -/
theorem callPushesReturnAddress : Obligations.CallPushesReturnAddress := by
  refine ⟨fun a s ha hm => ?_, fun a s ha => ⟨_, (exec_call a s).trans (checkReg_of_ge ha s _), rfl⟩⟩
  rw [← reg_decSp_operand s ha]
  exact ⟨_, (exec_call a s).trans (checkReg_of_lt ha s _), writesOnlyReg_writeReg s 7 (s.sp - 1), storesOnly_push hm _,
    rfl, rfl, rfl, rfl, rfl, rfl⟩

/-- Settles O23: RET sets pc, and then SP is the one register written. -/
theorem retPopsProgramCounter : Obligations.RetPopsProgramCounter := fun s =>
  ⟨_, exec_ret s, rfl, writesOnlyReg_writeReg s 7 (s.sp + 1), rfl, rfl, fun _ => rfl, rfl, rfl, rfl⟩

/-- Settles O24, from what CALL leaves and what RET reads. -/
theorem retReturnsPastCall : Obligations.RetReturnsPastCall := by
  intro a s u ha hm
  obtain ⟨t, hcall, ⟨htsp, -⟩, ⟨htop, -⟩, -⟩ := callPushesReturnAddress.1 a s ha hm
  obtain ⟨v, hret, hpc, ⟨hvsp, -⟩, -⟩ := retPopsProgramCounter u
  have htsp' : t.sp = s.sp - 1 := htsp
  refine ⟨t, hcall, fun hsp hbyte => ⟨v, hret, ?_, ?_⟩⟩
  · rw [hpc, hsp, hbyte, htsp', htop]
  · have hvsp' : v.sp = u.sp + 1 := hvsp
    rw [hvsp', hsp, htsp', sub_add_cancel]

/-- A taken jump sets pc to the operand register's value and writes nothing else. -/
theorem jumpToReg_sets_only_pc {a : Byte} (ha : a.toNat < 8) (s : State) : ∃ t, jumpToReg a s = .next t ∧
    t.pc = s.reg ⟨a.toNat, ha⟩ ∧ SameRegs s t ∧ t.fl = s.fl ∧ t.out = s.out ∧ SameMemory s t ∧ SameControl s t :=
  ⟨_, jumpToReg_of_lt ha, rfl, fun _ => rfl, rfl, rfl, fun _ => rfl, rfl, rfl, rfl⟩

/-- A branch not taken advances pc over its two bytes and writes nothing else. -/
theorem advance_sets_only_pc (s : State) (len : Byte) : (s.advance len).pc = s.pc + len ∧
    SameRegs s (s.advance len) ∧ (s.advance len).fl = s.fl ∧ (s.advance len).out = s.out ∧
    SameMemory s (s.advance len) ∧ SameControl s (s.advance len) :=
  ⟨rfl, fun _ => rfl, rfl, rfl, fun _ => rfl, rfl, rfl, rfl⟩

/-- A jump through an operand of 8 or more raises RegisterIndexFault (rule R212). -/
theorem jumpToReg_raises {a : Byte} (ha : 8 ≤ a.toNat) (s : State) :
    ∃ t, jumpToReg a s = .next t ∧ RaisesOnly s t .registerIndexFault a :=
  ⟨_, jumpToReg_of_ge ha, rfl⟩

theorem exec_jeq_taken {s : State} (h : s.fl.e = true) (a : Byte) : exec (.jeq a) s = jumpToReg a s := by
  rw [exec_jeq, if_pos h]

theorem exec_jeq_not_taken {s : State} (h : s.fl.e = false) (a : Byte) : exec (.jeq a) s = .next (s.advance 2) := by
  rw [exec_jeq, if_neg (by simp [h])]

theorem exec_jne_taken {s : State} (h : s.fl.e = false) (a : Byte) : exec (.jne a) s = jumpToReg a s := by
  rw [exec_jne, if_neg (by simp [h])]

theorem exec_jne_not_taken {s : State} (h : s.fl.e = true) (a : Byte) : exec (.jne a) s = .next (s.advance 2) := by
  rw [exec_jne, if_pos h]

/-- Settles O25: JMP is a jump through the operand register. -/
theorem jmpAlwaysJumps : Obligations.JmpAlwaysJumps :=
  ⟨fun _ s ha => jumpToReg_sets_only_pc ha s, fun _ s ha => jumpToReg_raises ha s⟩

/-- Settles O26: with E set JEQ is a jump through the operand register, and else an advance. -/
theorem jeqJumpsIfEqual : Obligations.JeqJumpsIfEqual := by
  refine ⟨fun a s ha he => ?_, fun a s he => ⟨_, exec_jeq_not_taken he a, advance_sets_only_pc s 2⟩,
    fun a s he ha => ?_⟩
  · rw [exec_jeq_taken he]
    exact jumpToReg_sets_only_pc ha s
  · rw [exec_jeq_taken he]
    exact jumpToReg_raises ha s

/-- Settles O27: with E clear JNE is a jump through the operand register, and else an advance. -/
theorem jneJumpsIfNotEqual : Obligations.JneJumpsIfNotEqual := by
  refine ⟨fun a s ha he => ?_, fun a s he => ⟨_, exec_jne_not_taken he a, advance_sets_only_pc s 2⟩,
    fun a s he ha => ?_⟩
  · rw [exec_jne_taken he]
    exact jumpToReg_sets_only_pc ha s
  · rw [exec_jne_taken he]
    exact jumpToReg_raises ha s

/-- Settles O44: the CALL runs with the fetched operand, and its push at SP - 1 = pc + 1 is what a later fetch reads. -/
theorem callUsesTheFetchedOperand : Obligations.CallUsesTheFetchedOperand := by
  intro s a ha hm hrun hkind hop hbyte hne hsp
  have hdecode : decodeBytes (s.byteAt s.pc) (s.byteAt (s.pc + 1)) (s.byteAt (s.pc + 2)) = some (.call a) :=
    decodeBytes_eq_some.mpr ⟨.call, hop, congrArg Instr.call hbyte⟩
  obtain ⟨t, hcall, -, ⟨hstore, -⟩, hpc, -⟩ := callPushesReturnAddress.1 a s.fetch ha hm
  have htop : s.fetch.sp - 1 = s.pc + 1 := by
    have hfetch : s.fetch.sp = s.pc + 2 := hsp
    rw [hfetch]
    bv_omega
  rw [htop] at hstore
  exact ⟨t, (stepRunsDecodedInstruction s _ hrun hkind hdecode).trans hcall, hpc.trans (if_neg hne), hstore, hstore⟩

end Sys2Proof.Machine
end

/-! ## Rules over all instructions -/

section
/-! Rules R20, R23, R24, R37 and R51: which instruction completes, and which writes memory, OUT and the registers. -/

namespace Sys2Proof.Machine

variable {i : Instr} {s t : State}

/-- A well-formed instruction names a register in every register operand (rule R24). -/
theorem lt_of_wf (h : i.wf = true) {a : Byte} (ha : a ∈ i.registerOperands) : a.toNat < 8 :=
  of_decide_eq_true (List.all_eq_true.mp h a ha)

/-- Settles O29: a handler answers, and raises only for a register operand of 8 or more. -/
theorem wellFormedInstructionNeverFaults : Obligations.WellFormedInstructionNeverFaults := by
  intro i s hwf
  obtain ⟨t, h⟩ := exec_answers i s
  refine ⟨t, h, ?_⟩
  obtain hkeep | ⟨a, hmem, ha, -⟩ := (exec_effect h).fault_eq_or_raise
  · exact hkeep
  · exact absurd (lt_of_wf hwf hmem) (Nat.not_lt.mpr ha)

/-- A step that changes a part of the state that neither a fetch nor a raise writes is one whose fetched bytes decode
to an instruction, and that instruction's handler made the change. -/
theorem step_exec_of_ne {α : Type} (part : State → α) (hpart : part (s.fetch.raise .unknownInstruction 0) = part s)
    (h : step s = .next t) (hne : part t ≠ part s) :
    ∃ i, s.fetch.latchedInstr = some i ∧ exec i s.fetch = .next t := by
  obtain ⟨-, rfl⟩ | ⟨-, -, rfl⟩ | ⟨-, i, hi, h⟩ := step_next h
  · exact absurd rfl hne
  · exact absurd hpart hne
  · exact ⟨i, hi, h⟩

/-- A byte is kept, or the instruction is a PUSH or a CALL that completes and the byte is below the stack top. -/
theorem Effect.byteAt_eq_or_push (h : Effect s i t) (addr : Byte) : t.byteAt addr = s.byteAt addr ∨
    (∃ a, i = .push a ∨ i = .call a) ∧ addr = s.sp - 1 ∧ t.fault = s.fault := by
  by_cases haddr : addr = s.sp - 1
  · cases h with
    | push => exact .inr ⟨⟨_, .inl rfl⟩, haddr, rfl⟩
    | call => exact .inr ⟨⟨_, .inr rfl⟩, haddr, rfl⟩
    | _ => exact .inl rfl
  · rw [← sp_decSp] at haddr
    cases h with
    | push | call => exact .inl (State.byteAt_writeByte_other s.decSp _ haddr)
    | _ => exact .inl rfl

/-- Settles O33, from what each instruction can do to a byte. -/
theorem onlyPushAndCallWriteMemory : Obligations.OnlyPushAndCallWriteMemory := by
  refine ⟨fun i s t addr h hne => ((exec_effect h).byteAt_eq_or_push addr).resolve_left hne, fun s t addr h hne => ?_⟩
  obtain ⟨i, hi, h⟩ := step_exec_of_ne (fun u => u.byteAt addr) rfl h hne
  obtain ⟨⟨a, rfl | rfl⟩, haddr, -⟩ := ((exec_effect h).byteAt_eq_or_push addr).resolve_left hne
  · exact ⟨⟨a, .inl hi⟩, haddr⟩
  · exact ⟨⟨a, .inr hi⟩, haddr⟩

/-- OUT is kept, or the instruction is a PRN that appends its register's value. -/
theorem Effect.out_eq_or_prn (h : Effect s i t) : t.out = s.out ∨
    ∃ (a : Byte) (ha : a.toNat < 8), i = .prn a ∧ t.out = s.out ++ [s.reg ⟨a.toNat, ha⟩] := by
  cases h with
  | prn ha => exact .inr ⟨_, ha, rfl, rfl⟩
  | _ => exact .inl rfl

/-- Settles O34, from what each instruction can do to OUT. -/
theorem onlyPrnAppendsOutput : Obligations.OnlyPrnAppendsOutput := by
  refine ⟨fun i s t h => (exec_effect h).out_eq_or_prn, fun s t h hne => ?_⟩
  obtain ⟨i, hi, h⟩ := step_exec_of_ne State.out rfl h hne
  obtain ⟨a, ha, rfl, hout⟩ := (exec_effect h).out_eq_or_prn.resolve_left hne
  exact ⟨_, hout, a, hi⟩

/-- A register whose value a write changes is the one written. -/
theorem eq_of_reg_writeReg_ne {r q : Reg} {v : Byte} (h : (s.writeReg r v).reg q ≠ s.reg q) : q = r := by
  by_contra hq
  exact h ((writesOnlyReg_writeReg s r v).2 q hq)

/-- Settles O35: each way an instruction completes is one or two register writes, or none. -/
theorem registersWrittenByEachInstruction : Obligations.RegistersWrittenByEachInstruction := by
  intro i s t q h hne
  cases exec_effect h with
  | ldi => exact .inl ⟨_, _, .inl rfl, congrArg Fin.val (eq_of_reg_writeReg_ne hne)⟩
  | add => exact .inl ⟨_, _, .inr (.inl rfl), congrArg Fin.val (eq_of_reg_writeReg_ne hne)⟩
  | mul => exact .inl ⟨_, _, .inr (.inr (.inl rfl)), congrArg Fin.val (eq_of_reg_writeReg_ne hne)⟩
  | pop ha =>
    by_cases hq : q = 7
    · exact .inr ⟨.inr ⟨_, .inr (.inl rfl)⟩, hq⟩
    · have hreg := reg_incSp_writeReg s ⟨_, ha⟩ s.loadTop q
      rw [if_neg hq] at hreg
      by_cases hqa : q = ⟨_, ha⟩
      · exact .inl ⟨_, 0, .inr (.inr (.inr rfl)), congrArg Fin.val hqa⟩
      · exact absurd (hreg.trans (if_neg hqa)) hne
  | ret => exact .inr ⟨.inl rfl, eq_of_reg_writeReg_ne hne⟩
  | push => exact .inr ⟨.inr ⟨_, .inl rfl⟩, eq_of_reg_writeReg_ne hne⟩
  | call => exact .inr ⟨.inr ⟨_, .inr (.inr rfl)⟩, eq_of_reg_writeReg_ne hne⟩
  | _ => exact absurd rfl hne

end Sys2Proof.Machine
end

section
/-! Rules R103, R212, R213 and R216: what a faulting step writes, and which failing check it reports. -/

namespace Sys2Proof

/-- The first register operand of an instruction is the first operand byte that it is built from. -/
theorem Op.head_registerOperands_build {o : Op} {a b x : Byte} {l : List Byte}
    (h : (o.build a b).registerOperands = x :: l) : x = a := by
  have hhead : ∀ y ∈ (o.build a b).registerOperands.head?, y = a := by
    cases o <;> simp [Op.build, Instr.registerOperands]
  exact hhead x (by simp [h])

/-- Two register operands are the two operand bytes that the instruction is built from. -/
theorem Op.registerOperands_build_eq_pair {o : Op} {a b x y : Byte}
    (h : (o.build a b).registerOperands = [x, y]) : x = a ∧ y = b := by
  cases o <;> simp_all [Op.build, Instr.registerOperands]

namespace Machine

variable {i : Instr} {s t : State}

/-- An instruction of the alu: ADD, MUL or CMP. -/
def IsAlu (i : Instr) (a b : Byte) : Prop := i = .add a b ∨ i = .mul a b ∨ i = .cmp a b

/-- The handler of an instruction of the alu is the alu handler. -/
theorem IsAlu.exec_eq {a b : Byte} (h : IsAlu i a b) (s : State) : ∃ op, exec i s = aluHandler op a b s := by
  obtain rfl | rfl | rfl := h
  · exact ⟨_, exec_add a b s⟩
  · exact ⟨_, exec_mul a b s⟩
  · exact ⟨_, exec_cmp a b s⟩

theorem IsAlu.registerOperands_eq {a b : Byte} (h : IsAlu i a b) : i.registerOperands = [a, b] := by
  obtain rfl | rfl | rfl := h <;> rfl

/-- An instruction names no register, or one, or is one of the alu and names two. -/
theorem registerOperands_cases (i : Instr) :
    i.registerOperands = [] ∨ (∃ a, i.registerOperands = [a]) ∨ ∃ a b, IsAlu i a b := by
  cases i with
  | hlt | ret => exact .inl rfl
  | push | pop | prn | call | jmp | jeq | jne | ldi => exact .inr (.inl ⟨_, rfl⟩)
  | add => exact .inr (.inr ⟨_, _, .inl rfl⟩)
  | mul => exact .inr (.inr ⟨_, _, .inr (.inl rfl)⟩)
  | cmp => exact .inr (.inr ⟨_, _, .inr (.inr rfl)⟩)

/-- An instruction keeps FAULT, or raises for its first register operand, or is one of the alu with a first operand in
range and raises for the second (rule R216). -/
theorem exec_fault_cases (h : exec i s = .next t) : t.fault = s.fault ∨
    (∃ a l, i.registerOperands = a :: l ∧ 8 ≤ a.toNat ∧ t = s.raise .registerIndexFault a) ∨
    (∃ a b, IsAlu i a b ∧ a.toNat < 8 ∧ 8 ≤ b.toNat ∧ t = s.raise .registerIndexFault b) := by
  obtain hkeep | ⟨x, hmem, hx, rfl⟩ := (exec_effect h).fault_eq_or_raise
  · exact .inl hkeep
  · right
    obtain hnone | ⟨a, hone⟩ | ⟨a, b, halu⟩ := registerOperands_cases i
    · rw [hnone] at hmem
      cases hmem
    · rw [hone, List.mem_singleton] at hmem
      exact .inl ⟨x, [], hmem ▸ hone, hx, rfl⟩
    · obtain ⟨op, hexec⟩ := halu.exec_eq s
      rw [hexec] at h
      obtain ha | ha := Nat.lt_or_ge a.toNat 8
      · obtain hb | hb := Nat.lt_or_ge b.toNat 8
        · rw [halu.registerOperands_eq, List.mem_pair] at hmem
          obtain rfl | rfl := hmem <;> omega
        · rw [aluHandler_of_ge_b op ha hb] at h
          exact .inr ⟨a, b, halu, ha, hb, by cases h; rfl⟩
      · rw [aluHandler_of_ge_a op ha] at h
        exact .inl ⟨a, [b], halu.registerOperands_eq, ha, by cases h; rfl⟩

/-- The step by which a core faults raises UnknownInstruction for its latched opcode, or is a handler's fault. -/
theorem step_fault_cases (h : step s = .next t) (hs : s.fault.kind = .none) (ht : t.fault.kind ≠ .none) :
    (s.fetch.latchedInstr = none ∧ t = s.fetch.raise .unknownInstruction 0) ∨
    ∃ i, s.fetch.latchedInstr = some i ∧ exec i s.fetch = .next t ∧ t.fault ≠ s.fetch.fault := by
  obtain ⟨-, rfl⟩ | ⟨-, hi, rfl⟩ | ⟨-, i, hi, h⟩ := step_next h
  · exact absurd hs ht
  · exact .inl ⟨hi, rfl⟩
  · refine .inr ⟨i, hi, h, fun hfault => ht ?_⟩
    rw [hfault]
    exact hs

/-- The step by which a core faults is a fetch and a raise. -/
theorem step_raises (h : step s = .next t) (hs : s.fault.kind = .none) (ht : t.fault.kind ≠ .none) :
    ∃ kind detail, t = s.fetch.raise kind detail := by
  obtain ⟨-, ht⟩ | ⟨i, -, h, hne⟩ := step_fault_cases h hs ht
  · exact ⟨_, _, ht⟩
  · obtain hkeep | ⟨a, -, -, ht⟩ := (exec_effect h).fault_eq_or_raise
    · exact absurd hkeep hne
    · exact ⟨_, _, ht⟩

/-- Settles O36: a fetch writes the latch alone and a raise FAULT alone, with the bytes just latched. -/
theorem faultingStepChangesOnlyFault : Obligations.FaultingStepChangesOnlyFault := by
  intro s t h hs ht
  obtain ⟨kind, detail, rfl⟩ := step_raises h hs ht
  exact ⟨rfl, rfl, rfl, rfl, rfl⟩

/-- Settles O38: the opcode is looked up before any handler runs, and a handler checks its operands in order. -/
theorem firstFailingCheckIsReported : Obligations.FirstFailingCheckIsReported := by
  intro s t h hs ht
  obtain ⟨hi, rfl⟩ | ⟨i, hi, h, hne⟩ := step_fault_cases h hs ht
  · exact .inl ⟨rfl, rfl, State.latchedInstr_eq_none.mp hi⟩
  · obtain ⟨o, ho, rfl⟩ := State.latchedInstr_eq_some.mp hi
    obtain hkeep | ⟨a, l, hop, ha, rfl⟩ | ⟨a, b, halu, ha, hb, rfl⟩ := exec_fault_cases h
    · exact absurd hkeep hne
    · obtain rfl := Op.head_registerOperands_build hop
      exact .inr (.inl ⟨rfl, rfl, Option.ne_none_iff_exists'.mpr ⟨o, ho⟩, ha⟩)
    · obtain ⟨rfl, rfl⟩ := Op.registerOperands_build_eq_pair halu.registerOperands_eq
      refine .inr (.inr ⟨rfl, rfl, ha, hb, s.fetch.ir.a, s.fetch.ir.b, ?_⟩)
      obtain hadd | hmul | hcmp := halu
      · exact .inl (hi.trans (congrArg some hadd))
      · exact .inr (.inl (hi.trans (congrArg some hmul)))
      · exact .inr (.inr (hi.trans (congrArg some hcmp)))

end Machine

end Sys2Proof
end

section
/-! Rule R71 and log entry 13: only fault entry reads the latch. -/

namespace Sys2Proof.Machine

/-- `u` is `t` but for the latch, which holds `ir`, and for the bytes that FAULT copied from the latch if it holds a
fault. -/
def SameButLatch (ir : Latch) (t u : State) : Prop :=
  u.mem = t.mem ∧ u.regs = t.regs ∧ u.pc = t.pc ∧ u.fl = t.fl ∧
    u.run = t.run ∧ u.out = t.out ∧ u.ir = ir ∧ u.fault.kind = t.fault.kind ∧ u.fault.pc = t.fault.pc ∧
    u.fault.detail = t.fault.detail ∧ (t.fault.kind = .none → u.fault = t.fault)

variable {ir : Latch} {s : State}

/-- A state with another latch. -/
theorem sameButLatch_latch (ir : Latch) (t : State) : SameButLatch ir t (t.latch ir) :=
  ⟨rfl, rfl, rfl, rfl, rfl, rfl, rfl, rfl, rfl, rfl, fun _ => rfl⟩

/-- A fault raised from another latch. -/
theorem sameButLatch_raise {kind : FaultKind} (hkind : kind ≠ .none) (ir : Latch) (s : State) (detail : Byte) :
    SameButLatch ir (s.raise kind detail) ((s.latch ir).raise kind detail) :=
  ⟨rfl, rfl, rfl, rfl, rfl, rfl, rfl, rfl, rfl, rfl, fun h => absurd h hkind⟩

/-- If `r` is a next state, then `r'` is one that differs from it in the latch and what FAULT copied from it alone. -/
def NextSameButLatch (ir : Latch) (r r' : Result) : Prop := ∀ t, r = .next t → ∃ u, r' = .next u ∧ SameButLatch ir t u

/-- What completes does so with the latch it found. -/
theorem nextSameButLatch_next (ir : Latch) (t : State) : NextSameButLatch ir (.next t) (.next (t.latch ir)) := by
  rintro _ ⟨⟩
  exact ⟨_, rfl, sameButLatch_latch ir t⟩

theorem nextSameButLatch_raise {kind : FaultKind} (hkind : kind ≠ .none) (ir : Latch) (s : State) (detail : Byte) :
    NextSameButLatch ir (.next (s.raise kind detail)) (.next ((s.latch ir).raise kind detail)) := by
  rintro _ ⟨⟩
  exact ⟨_, rfl, sameButLatch_raise hkind ir s detail⟩

/-- The operand check reads the operand of the instruction and not the latch. -/
theorem nextSameButLatch_checkReg {a : Byte} {k k' : Reg → Result} (h : ∀ r, NextSameButLatch ir (k r) (k' r)) :
    NextSameButLatch ir (checkReg a s k) (checkReg a (s.latch ir) k') := by
  obtain ha | ha := Nat.lt_or_ge a.toNat 8
  · rw [checkReg_of_lt ha, checkReg_of_lt ha]
    exact h _
  · rw [checkReg_of_ge ha, checkReg_of_ge ha]
    exact nextSameButLatch_raise (by decide) ir s a

theorem nextSameButLatch_jumpToReg (a : Byte) :
    NextSameButLatch ir (jumpToReg a s) (jumpToReg a (s.latch ir)) :=
  nextSameButLatch_checkReg fun _ => nextSameButLatch_next ir _

/-- A fault that the alu drives has a kind (rule R131). -/
theorem alu_fault_ne_none {op : BitVec 3} {x y : Byte} {kind : FaultKind} (h : alu op x y = .fault kind) :
    kind ≠ .none := by
  rw [alu] at h
  cases hk : AluKind.ofCode op with
  | none => rw [hk] at h; cases h; decide
  | some k =>
    rw [hk] at h
    cases k with
    | div =>
      by_cases hy : y = 0
      · cases (if_pos hy).symm.trans h; decide
      · cases (if_neg hy).symm.trans h
    | _ => cases h

/-- The alu reads registers only, so both runs get the same output from it. -/
theorem nextSameButLatch_aluHandler (op : BitVec 3) (a b : Byte) :
    NextSameButLatch ir (aluHandler op a b s) (aluHandler op a b (s.latch ir)) := by
  refine nextSameButLatch_checkReg fun ra => nextSameButLatch_checkReg fun rb => ?_
  simp only [State.latch_reg]
  cases hout : alu op (s.reg ra) (s.reg rb) with
  | result v => exact nextSameButLatch_next ir _
  | flags f => exact nextSameButLatch_next ir _
  | fault kind => exact nextSameButLatch_raise (alu_fault_ne_none hout) ir s 0

/-- A handler does the same with another latch, but for what its fault records. -/
theorem nextSameButLatch_exec (i : Instr) (s : State) (ir : Latch) :
    NextSameButLatch ir (exec i s) (exec i (s.latch ir)) := by
  cases i with
  | hlt => exact nextSameButLatch_next ir (s.halt.advance 1)
  | ret => exact nextSameButLatch_next ir (s.setPc s.loadTop).incSp
  | push | pop | prn | call | ldi =>
    simp only [exec_push, exec_pop, exec_prn, exec_call, exec_ldi]
    exact nextSameButLatch_checkReg fun _ => nextSameButLatch_next ir _
  | jmp a => exact nextSameButLatch_jumpToReg a
  | jeq a =>
    rw [exec_jeq, exec_jeq, State.latch_fl]
    split
    · exact nextSameButLatch_jumpToReg a
    · exact nextSameButLatch_next ir (s.advance 2)
  | jne a =>
    rw [exec_jne, exec_jne, State.latch_fl]
    split
    · exact nextSameButLatch_next ir (s.advance 2)
    · exact nextSameButLatch_jumpToReg a
  | add a b => exact nextSameButLatch_aluHandler AluKind.add.code a b
  | mul a b => exact nextSameButLatch_aluHandler AluKind.mul.code a b
  | cmp a b => exact nextSameButLatch_aluHandler AluKind.cmp.code a b

/-- Settles O39: an instruction drops the bytes past its end, and two runs are compared arm by arm. -/
theorem latchIsReadOnlyByFaultEntry : Obligations.LatchIsReadOnlyByFaultEntry := by
  refine ⟨fun o a b c => ⟨fun h => ?_, fun h => ?_⟩, fun i s t ir h => nextSameButLatch_exec i s ir t h⟩
  · exact Op.build_congr (by omega) (by omega)
  · exact Op.build_congr (fun _ => rfl) (by omega)

end Sys2Proof.Machine
end

section
/-! Rules R76 and R104: the control word's datapath against the handlers. -/

namespace Sys2Proof.Machine

variable {c : ControlWord} {s : State} {i : Instr}

/-- Past its check an operand byte selects the register that it names. -/
theorem portIndex_of_lt {a : Byte} (h : a.toNat < 8) : portIndex a = ⟨a.toNat, h⟩ :=
  Fin.ext (Nat.mod_eq_of_lt h)

/-- With no access to a register operand and no alu operation, the datapath runs unchecked. -/
theorem dispatchMux_unchecked (hA : c.accessesA s.fl = false) (hB : c.rdB = false) (hop : c.aluOp = none) :
    dispatchMux c s = .next (datapath c (portIndex s.ir.a) none s) := by
  simp [dispatchMux, hA, hB, hop]

/-- An operand_a of 8 or more is rejected when it is accessed. -/
theorem dispatchMux_of_ge_a (hA : c.accessesA s.fl = true) (h : 8 ≤ s.ir.a.toNat) :
    dispatchMux c s = .next (s.raise .registerIndexFault s.ir.a) := by
  simp [dispatchMux, hA, h]

/-- With one register operand, the datapath runs behind the operand check. -/
theorem dispatchMux_checkReg (hA : c.accessesA s.fl = true) (hB : c.rdB = false) (hop : c.aluOp = none) :
    dispatchMux c s = checkReg s.ir.a s fun ra => .next (datapath c ra none s) := by
  obtain ha | ha := Nat.lt_or_ge s.ir.a.toNat 8
  · rw [checkReg_of_lt ha, ← portIndex_of_lt ha]
    simp [dispatchMux, hB, hop, Nat.not_le.mpr ha]
  · rw [checkReg_of_ge ha, dispatchMux_of_ge_a hA ha]

/-- With two register operands, operand_b is checked after operand_a (rule R216). -/
theorem dispatchMux_of_ge_b (hB : c.rdB = true) (ha : s.ir.a.toNat < 8) (hb : 8 ≤ s.ir.b.toNat) :
    dispatchMux c s = .next (s.raise .registerIndexFault s.ir.b) := by
  simp [dispatchMux, hB, Nat.not_le.mpr ha, hb]

/-- With two register operands in range and no alu fault, the datapath runs on the alu's output. -/
theorem dispatchMux_alu {op : BitVec 3} {out : AluOut} (hop : c.aluOp = some op) (ha : s.ir.a.toNat < 8)
    (hb : s.ir.b.toNat < 8) (hout : alu op (s.reg ⟨s.ir.a.toNat, ha⟩) (s.reg ⟨s.ir.b.toNat, hb⟩) = out)
    (hfault : ∀ kind, out ≠ .fault kind) : dispatchMux c s = .next (datapath c ⟨s.ir.a.toNat, ha⟩ (some out) s) := by
  cases out with
  | result | flags =>
    simp [dispatchMux, hop, Nat.not_le.mpr ha, Nat.not_le.mpr hb, portIndex_of_lt ha, portIndex_of_lt hb, hout]
  | fault kind => exact absurd rfl (hfault kind)

/-- For an instruction of the alu the two agree if they do with both operands in range: the checks are the same. -/
theorem dispatchMux_eq_exec_of_isAlu (hi : IsAlu i s.ir.a s.ir.b) (hA : c.accessesA s.fl = true) (hB : c.rdB = true)
    (hlt : s.ir.a.toNat < 8 → s.ir.b.toNat < 8 → dispatchMux c s = exec i s) : dispatchMux c s = exec i s := by
  obtain ⟨op, hexec⟩ := hi.exec_eq s
  obtain ha | ha := Nat.lt_or_ge s.ir.a.toNat 8
  · obtain hb | hb := Nat.lt_or_ge s.ir.b.toNat 8
    · exact hlt ha hb
    · rw [hexec, aluHandler_of_ge_b op ha hb, dispatchMux_of_ge_b hB ha hb]
  · rw [hexec, aluHandler_of_ge_a op ha, dispatchMux_of_ge_a hA ha]

theorem accessesA_jeq (fl : Flags) : (controlWordOf .jeq).accessesA fl = fl.e := rfl

theorem accessesA_jne (fl : Flags) : (controlWordOf .jne).accessesA fl = !fl.e := rfl

theorem datapath_jeq (ra : Reg) (s : State) :
    datapath (controlWordOf .jeq) ra none s = s.setPc (if s.fl.e then s.reg ra else s.pc + 2) := rfl

theorem datapath_jne (ra : Reg) (s : State) :
    datapath (controlWordOf .jne) ra none s = s.setPc (if s.fl.e then s.pc + 2 else s.reg ra) := rfl

/-- The row of JEQ: with E set a jump behind the operand check, and else an unchecked advance (rules R24, R183). -/
theorem dispatchMux_jeq (s : State) : dispatchMux (controlWordOf .jeq) s = exec (.jeq s.ir.a) s := by
  have hA := accessesA_jeq s.fl
  cases he : s.fl.e with
  | true =>
    rw [exec_jeq_taken he, dispatchMux_checkReg (hA.trans he) rfl rfl]
    simp only [datapath_jeq, if_pos he, jumpToReg]
  | false =>
    rw [exec_jeq_not_taken he, dispatchMux_unchecked (hA.trans he) rfl rfl]
    simp [datapath_jeq, he]

/-- The row of JNE: with E clear a jump behind the operand check, and else an unchecked advance (rules R24, R184). -/
theorem dispatchMux_jne (s : State) : dispatchMux (controlWordOf .jne) s = exec (.jne s.ir.a) s := by
  have hA := accessesA_jne s.fl
  cases he : s.fl.e with
  | true =>
    rw [exec_jne_not_taken he, dispatchMux_unchecked (hA.trans (by rw [he]; rfl)) rfl rfl]
    simp [datapath_jne, he]
  | false =>
    rw [exec_jne_taken he, dispatchMux_checkReg (hA.trans (by rw [he]; rfl)) rfl rfl]
    simp [datapath_jne, he, jumpToReg]

/-- Settles O40: row by row of the table of rule R76. -/
theorem controlWordDatapathEqualsHandlers : Obligations.ControlWordDatapathEqualsHandlers := by
  intro s o c h
  obtain rfl : c = controlWordOf o := by
    obtain ⟨o', -, ho'⟩ := Option.map_eq_some_iff.mp h
    cases ho'
    rfl
  cases o with
  | hlt | ret => exact dispatchMux_unchecked rfl rfl rfl
  | push | pop | prn | call | jmp | ldi => exact dispatchMux_checkReg rfl rfl rfl
  | jeq => exact dispatchMux_jeq s
  | jne => exact dispatchMux_jne s
  | add =>
    refine dispatchMux_eq_exec_of_isAlu (.inl rfl) rfl rfl fun ha hb => ?_
    rw [dispatchMux_alu rfl ha hb (alu_code .add _ _) nofun]
    exact (exec_add_of_lt ha hb s).symm
  | mul =>
    refine dispatchMux_eq_exec_of_isAlu (.inr (.inl rfl)) rfl rfl fun ha hb => ?_
    rw [dispatchMux_alu rfl ha hb (alu_code .mul _ _) nofun]
    exact (exec_mul_of_lt ha hb s).symm
  | cmp =>
    refine dispatchMux_eq_exec_of_isAlu (.inr (.inr rfl)) rfl rfl fun ha hb => ?_
    rw [dispatchMux_alu rfl ha hb (alu_code .cmp _ _) nofun]
    exact (exec_cmp_of_lt ha hb s).symm

end Sys2Proof.Machine
end

section
/-! Log entry 1: the canonical form of the memory. -/

namespace Sys2Proof.Machine

namespace Memory

variable {m m' : Memory}

/-- In a memory whose addresses rise, the lookup of a listed key finds its cell. -/
theorem lookup_of_mem (hm : m.Pairwise fun c d => c.1 < d.1) {k : Nat} {v : Byte} (h : (k, v) ∈ m) :
    List.lookup k m = some v := by
  induction m with
  | nil => cases h
  | cons c m ih =>
    obtain ⟨hc, hm⟩ := List.pairwise_cons.mp hm
    obtain rfl | h := List.mem_cons.mp h
    · simp [List.lookup]
    · have hk : (k == c.1) = false := beq_eq_false_iff_ne.mpr (hc _ h).ne'
      simp only [List.lookup, hk]
      exact ih hm h

/-- A cell is listed exactly when its key is an address that reads as its byte, and not as an unlisted one does. -/
theorem mem_iff_read (hm : wf m) (k : Nat) (v : Byte) :
    (k, v) ∈ m ↔ k < Config.memSize ∧ v ≠ Config.unlistedByte ∧ m.read (BitVec.ofNat 8 k) = v := by
  constructor
  · intro h
    obtain ⟨hk, hv⟩ := hm.2 _ h
    have hkey : (BitVec.ofNat 8 k).toNat = k := Nat.mod_eq_of_lt hk
    exact ⟨hk, hv, by rw [read_eq, hkey, lookup_of_mem hm.1 h, Option.getD_some]⟩
  · rintro ⟨hk, hv, hread⟩
    have hkey : (BitVec.ofNat 8 k).toNat = k := Nat.mod_eq_of_lt hk
    rw [read_eq, hkey] at hread
    cases hl : List.lookup k m with
    | none => exact absurd (by rw [← hread, hl, Option.getD_none]) hv
    | some w =>
      rw [hl, Option.getD_some] at hread
      obtain ⟨l, l', rfl, -⟩ := List.lookup_eq_some_iff.mp hl
      simp [hread]

/-- A memory lists no cell twice. -/
theorem nodup_of_wf (hm : wf m) : m.Nodup := hm.1.imp fun h heq => h.ne (congrArg Prod.fst heq)

end Memory

/-- Settles O42: the two lists have the same cells, each once, and in rising order of the addresses. -/
theorem canonicalMemoryIsUnique : Obligations.CanonicalMemoryIsUnique := by
  intro m m' hm hm' hread
  have hperm : m.Perm m' := by
    rw [List.perm_ext_iff_of_nodup (Memory.nodup_of_wf hm) (Memory.nodup_of_wf hm')]
    rintro ⟨k, v⟩
    rw [Memory.mem_iff_read hm, Memory.mem_iff_read hm', hread]
  exact hperm.eq_of_pairwise (fun c d _ _ hcd hdc => absurd hdc hcd.asymm) hm.1 hm'.1

end Sys2Proof.Machine
end

section
/-! Rules R30 and R210: FL and FAULT.kind as the host reads them. -/

namespace Sys2Proof.Machine

/-- FL as a number has E in bit 0, G in bit 1, L in bit 2 and nothing above (decision D7). -/
theorem Flags.toByte_bits (f : Flags) : f.toByte.getLsbD 0 = f.e ∧ f.toByte.getLsbD 1 = f.g ∧
    f.toByte.getLsbD 2 = f.l ∧ f.toByte.toNat < 8 := by
  obtain ⟨e, g, l⟩ := f
  revert e g l
  decide

theorem FaultKind.code_lt_five (k : FaultKind) : k.code.toNat < 5 := by cases k <;> decide

/-- Settles O51: the bits of FL, and the codes by their table. -/
theorem hostViewOfFlagsAndFaultKind : Obligations.HostViewOfFlagsAndFaultKind :=
  ⟨Flags.toByte_bits, rfl, rfl, rfl, rfl, rfl, FaultKind.code_lt_five⟩

end Sys2Proof.Machine
end
